-- ==== Sys2Proof/Word.lean ====
section
/-! DEFINITION. The data types of the engine: bytes, Words, 128-bit blocks, the 4x4 State, the key schedule, the
enumerations of the control registers, and the values that go into and come out of a primitive. -/

namespace Sys2Proof

/-- A byte: an integer in 0..255; bit 0 is the least significant bit (rules R10, R11 of `00_scope.md`). -/
abbrev Byte := BitVec 8

/-- A Word: 32 bits, 4 bytes packed big-endian (rule R11; layout in `Machine/Operands.lean`, rule R52). -/
abbrev Word := BitVec 32

/-- 16 bytes seen as 128 bits: a block, a key or a round key. Byte `n` is in bits `127-8n` down to `120-8n`
(rule R53 of `20_memory.md`). -/
abbrev Block := BitVec 128

/-- The State, a 4x4 matrix of bytes (rules R11, R21). `sRC` is the cell of row `R` and column `C`, as rule R173
names the cells. -/
@[ext] structure CipherState where
  s00 : Byte
  s01 : Byte
  s02 : Byte
  s03 : Byte
  s10 : Byte
  s11 : Byte
  s12 : Byte
  s13 : Byte
  s20 : Byte
  s21 : Byte
  s22 : Byte
  s23 : Byte
  s30 : Byte
  s31 : Byte
  s32 : Byte
  s33 : Byte
  deriving DecidableEq, Repr, Inhabited

/-- The key schedule, an ordered sequence of 44 Words (rule R23 of `10_state.md`). -/
abbrev Schedule := Vector Word 44

/-- The direction, a two-case choice (rule R25): encrypt is 0 and decrypt is 1. -/
inductive Direction where
  | encrypt
  | decrypt
  deriving DecidableEq, Repr, Inhabited

/-- The sequencer's phase (rule R27): the five values that occur. -/
inductive Phase where
  | idle
  | expand
  | init
  | main
  | final
  deriving DecidableEq, Repr, Inhabited

/-- The seven micro-operations (rule R84), as names: the argument of the open timing parameter `LAT(u)`. -/
inductive MicroOp where
  | expand
  | encInit
  | decInit
  | encRound
  | decRound
  | encFinal
  | decFinal
  deriving DecidableEq, Repr, Inhabited

/-- The contents of the four data registers, which reset leaves unspecified (rule R35). -/
structure DataRegs where
  dir : Direction
  key : Block
  st  : CipherState
  w   : Schedule
  deriving DecidableEq, Repr, Inhabited

/-- The operands of `XOR` (rules R85, R110): two values of the same width. -/
inductive XorOperands where
  | bytes  (a b : Byte)
  | words  (a b : Word)
  | blocks (a b : Block)
  | states (a b : CipherState)
  deriving DecidableEq, Repr

/-- A value that is an operand or the result of a primitive (the signatures of rule R85). `index` is a round index.
`bytes` and `numbers` are byte sequences of any length at the byte-sequence boundary of rules R241 and R242, the
second with elements that need not be bytes. -/
inductive Value where
  | byte     (b : Byte)
  | word     (w : Word)
  | block    (b : Block)
  | state    (x : CipherState)
  | schedule (wd : Schedule)
  | index    (r : Nat)
  | bytes    (l : List Byte)
  | numbers  (l : List Nat)
  deriving DecidableEq, Repr

/-- The two errors of the engine's taxonomy, a closed enumeration (rule R240 of `60_exceptions.md`). They carry no
payload (rules R241, R242). -/
inductive BoundaryError where
  /-- `E1`: an operand of a byte-sequence call is not exactly 16 bytes long (rule R241). -/
  | invalidLength
  /-- `E2`: an element of an operand is outside 0..255 (rule R242). -/
  | domainViolation
  deriving DecidableEq, Repr

end Sys2Proof
end

