-- ==== Sys2Proof/Config.lean ====
section
/-! DEFINITION. The parameters: those the spec fixes (rule R6), those it leaves open (rule R7), and the free values
that stand for what it leaves unspecified. A constant declared `opaque` has no body: nothing can be proved about its
value, so every claim holds for every value of it. -/

namespace Sys2Proof

/-- `Nr`: the number of rounds (rule R6). -/
def Config.rounds : Nat := 10

/-- `BLOCK_BYTES` and `KEY_BYTES` (rule R6). -/
def Config.blockBytes : Nat := 16

/-- `GF_ITER`: the iterations of the multiply algorithm (rule R6). -/
def Config.gfIterations : Nat := 8

/-- `GF_REDUCE`: the reduction constant of GF(2^8) (rule R6). -/
def Config.gfReduce : Byte := 0x1B

/-- `LAT(u) - 1`: how many ticks the micro-operation `u` stalls before it is performed. OPEN (rules R7, R282): finite,
at least 0, and independent of the data, since it is a function of `u` alone. Log entry 8. -/
opaque Config.stallCycles : MicroOp → Nat

/-- The stalls of `EXPAND` when an implementation with a key-schedule cache finds the key in it. OPEN (rule R33: the
cache shows only in the number of cycles). Log entry 9. -/
opaque Config.stallCyclesOnHit : Nat

/-- `KS_CACHE`: whether the implementation keeps an expanded key schedule between operations with the same key. OPEN
(rules R7, R33). Log entry 9. -/
opaque Config.ksCache : Bool

/-- The form of the reset pin: synchronous or asynchronous, active high or low. -/
structure Config.ResetForm where
  synchronous : Bool
  activeHigh  : Bool
  deriving DecidableEq, Repr, Inhabited

/-- `RESET_FORM`. OPEN (rules R7, R270): no rule depends on it, and nothing in this model reads it. Log entry 10. -/
opaque Config.resetForm : Config.ResetForm

/-- FREE VALUE: the data registers `DIR`, `KEY`, `ST`, `W` after `RST`, "neither cleared nor kept, by promise" (rules
R35, R270). A function of the model's counter `freeIndex` and of the old contents, so that an implementation that
clears them, one that leaves the old bits and one that mixes them are all covered. Log entry 5. -/
opaque Config.afterReset : Nat → DataRegs → DataRegs

/-- FREE VALUE: `block_out` while `DONE = 0` (rules R26, R274): "it may show the input block, intermediate round
States, an old result or anything else". Log entry 6. -/
opaque Config.unspecifiedBlockOut : Nat → DataRegs → Block

end Sys2Proof
end

