-- ==== Sys2Proof/Syntax.lean ====
section
/-! DEFINITION. The instructions: one constructor for each of the 33 rows of the opcode table, at its three levels
(rule R80 of `30_encoding.md`): commands, micro-operations and primitives. -/

namespace Sys2Proof

/-- The instructions. A command's don't-care pins are kept as fields (`x` in rule R81), and so is `DIR` in the
micro-operation word of `EXPAND` (rule R84). A micro-operation takes its operand from the register `RND` (rule R84), a
primitive takes its operands as arguments (rule R85). -/
inductive Instr where
  -- commands `{rst, start, dir}` with the operands `key_in`, `block_in` (rule R81)
  | rst (start dir : Bool)
  | enc (key block : Block)
  | dec (key block : Block)
  | nop (dir : Bool)
  -- micro-operations `{DIR, PHASE}` (rule R84)
  | expand (dir : Direction)
  | encInit
  | decInit
  | encRound
  | decRound
  | encFinal
  | decFinal
  -- primitives (rule R85)
  | xor (ops : XorOperands)
  | xtime (v : Byte)
  | gfmul (a b : Byte)
  | subst (x : Byte)
  | invSubst (x : Byte)
  | rotWord (w : Word)
  | subWord (w : Word)
  | rconW (r : Fin 10)
  | kTransform (w : Word) (r : Fin 10)
  | kExpand (key : List Byte)
  | rKey (wd : Schedule) (r : Fin 11)
  | subBytes (x : CipherState)
  | invSubBytes (x : CipherState)
  | shiftRows (x : CipherState)
  | invShiftRows (x : CipherState)
  | mixColumns (x : CipherState)
  | invMixColumns (x : CipherState)
  | addRoundKey (x : CipherState) (rk : Block)
  | load (b : List Byte)
  | unload (x : CipherState)
  | encryptBlock (p key : List Nat)
  | decryptBlock (c key : List Nat)
  deriving DecidableEq, Repr

end Sys2Proof
end

