-- ==== Sys2Proof/Decode.lean ====
section
/-! DEFINITION. The three encodings of `30_encoding.md`: the 259-bit command word (rule R81), the 4-bit micro-operation
word (rule R84), and the call of a primitive by its document name with the `inverse` flag (rule R85); the decoder of
each; and the encoder. -/

namespace Sys2Proof

/-! ## The encodings -/

/-- A command word: the 3 pins `{rst, start, dir}`, then `key_in[127:0]`, then `block_in[127:0]`, "259 bits in all"
(rules R81, R90). The pins are bits 258..256, `key` is bits 255..128 and `block` is bits 127..0 (log entry 13). -/
abbrev CommandWord := BitVec 259

/-- The document's name of a primitive (rule R13); a primitive with two variants has one name and an `inverse` flag. -/
inductive PrimFn where
  | xor
  | xtime
  | multiply
  | substitute
  | rotWord
  | subWord
  | roundConstant
  | transform
  | expand
  | roundKey
  | subBytes
  | shiftRows
  | mixColumns
  | addRoundKey
  | load
  | unload
  | cryptBlock
  deriving DecidableEq, Repr

/-- The call of a primitive: its name, the `inverse` flag where it has one ("`0` for the forward variant, `1` for the
inverse variant, and the empty encoding for primitives with one variant", rule R85), and its operands. Log entry 14. -/
structure PrimCall where
  fn      : PrimFn
  inverse : Option Bool
  args    : List Value
  deriving DecidableEq, Repr

/-- An encoded instruction, in one of the three formats `CMD`, `UOP`, `PRIM`. -/
inductive Encoded where
  | command   (w : CommandWord)
  | microOp   (w : BitVec 4)
  | primitive (p : PrimCall)
  deriving DecidableEq, Repr

/-- Why a word is no instruction. No command word is ever rejected (rule R87 (a)). -/
inductive DecodeError where
  /-- `PHASE = IDLE` in a micro-operation word: "none: the engine waits" (rule R84). -/
  | idleSelectsNone
  /-- `PHASE` is 5, 6 or 7, which "do not occur" (rule R87 (c)). -/
  | reservedPhase
  /-- A primitive with two variants is called without the `inverse` flag (rule R85). -/
  | missingInverse
  /-- A primitive with one variant is called with an `inverse` flag (rule R85). -/
  | unexpectedInverse
  /-- The operands are not those of the primitive's signature (rule R85). -/
  | wrongOperands
  /-- A round index has no table entry or no round key: it "does not occur and has no meaning" (rules R152, R155). -/
  | indexOutOfRange
  deriving DecidableEq, Repr

/-! ## The fields -/

/-- The bit that encodes a direction: 0 encrypt, 1 decrypt (rule R82). -/
def directionBit (d : Direction) : Bool :=
  match d with
  | .encrypt => false
  | .decrypt => true

/-- The direction a bit encodes (rule R82). -/
def directionOfBit (b : Bool) : Direction := if b then .decrypt else .encrypt

/-- The value of `PHASE` (rule R27). -/
def phaseBits (p : Phase) : BitVec 3 :=
  match p with
  | .idle => 0
  | .expand => 1
  | .init => 2
  | .main => 3
  | .final => 4

/-- The phase a value of `PHASE` stands for; 5, 6 and 7 do not occur (rules R27, R87 (c)). -/
def phaseOfBits (b : BitVec 3) : Option Phase :=
  match b.toNat with
  | 0 => some .idle
  | 1 => some .expand
  | 2 => some .init
  | 3 => some .main
  | 4 => some .final
  | _ => none

/-- The pins `{rst, start, dir}`: bit 2 is `rst`, bit 1 `start`, bit 0 `dir` (rule R81). -/
def pinBits (rst start dir : Bool) : BitVec 3 :=
  BitVec.ofBool rst ++ BitVec.ofBool start ++ BitVec.ofBool dir

/-- The command word of pins and operands (rule R81). -/
def commandWord (pins : BitVec 3) (key block : Block) : CommandWord := pins ++ key ++ block

/-- The pins of a command word. -/
def CommandWord.pins (w : CommandWord) : BitVec 3 := w.extractLsb' 256 3

/-- `key_in` of a command word. -/
def CommandWord.key (w : CommandWord) : Block := w.extractLsb' 128 128

/-- `block_in` of a command word. -/
def CommandWord.block (w : CommandWord) : Block := w.extractLsb' 0 128

/-- The micro-operation word `{DIR, PHASE[2:0]}` (rule R84). -/
def microOpWord (d : Direction) (p : Phase) : BitVec 4 := BitVec.ofBool (directionBit d) ++ phaseBits p

/-! ## The decoders -/

/-- Which command the pins stand for (the table of rule R81): `1xx` is `RST`, `010` is `ENC`, `011` is `DEC` and `00x` is
`NOP`. Total: "there is no illegal command word". -/
def decodeCommand (w : CommandWord) : Instr :=
  let rst := w.pins.getLsbD 2
  let start := w.pins.getLsbD 1
  let dir := w.pins.getLsbD 0
  if rst then .rst start dir
  else if start then
    match directionOfBit dir with
    | .encrypt => .enc w.key w.block
    | .decrypt => .dec w.key w.block
  else .nop dir

/-- Which micro-operation the engine's own control state selects (the table of rule R84). -/
def decodeMicroOp (w : BitVec 4) : Except DecodeError Instr :=
  let d := directionOfBit (w.getLsbD 3)
  match phaseOfBits (w.extractLsb' 0 3) with
  | none => .error .reservedPhase
  | some .idle => .error .idleSelectsNone
  | some .expand => .ok (.expand d)
  | some .init => match d with
    | .encrypt => .ok .encInit
    | .decrypt => .ok .decInit
  | some .main => match d with
    | .encrypt => .ok .encRound
    | .decrypt => .ok .decRound
  | some .final => match d with
    | .encrypt => .ok .encFinal
    | .decrypt => .ok .decFinal

/-- A primitive with one variant has the empty encoding (rule R85). -/
def oneVariant (p : PrimCall) (f : List Value → Except DecodeError Instr) : Except DecodeError Instr :=
  match p.inverse with
  | none => f p.args
  | some _ => .error .unexpectedInverse

/-- A primitive with two variants has the `inverse` flag (rules R82, R85). -/
def twoVariants (p : PrimCall) (f : Bool → List Value → Except DecodeError Instr) : Except DecodeError Instr :=
  match p.inverse with
  | none => .error .missingInverse
  | some b => f b p.args

/-- A round-constant index, 0..9 (rule R152). -/
def rconIndex (r : Nat) (f : Fin 10 → Instr) : Except DecodeError Instr :=
  if h : r < 10 then .ok (f ⟨r, h⟩) else .error .indexOutOfRange

/-- A round-key index, 0..10 (rule R155). -/
def roundKeyIndex (r : Nat) (f : Fin 11 → Instr) : Except DecodeError Instr :=
  if h : r < 11 then .ok (f ⟨r, h⟩) else .error .indexOutOfRange

/-- Which primitive a call stands for (the tables of rules R13 and R85). -/
def decodePrimitive (p : PrimCall) : Except DecodeError Instr :=
  match p.fn with
  | .xor => oneVariant p fun args => match args with
    | [.byte a, .byte b] => .ok (.xor (.bytes a b))
    | [.word a, .word b] => .ok (.xor (.words a b))
    | [.block a, .block b] => .ok (.xor (.blocks a b))
    | [.state a, .state b] => .ok (.xor (.states a b))
    | _ => .error .wrongOperands
  | .xtime => oneVariant p fun args => match args with
    | [.byte v] => .ok (.xtime v)
    | _ => .error .wrongOperands
  | .multiply => oneVariant p fun args => match args with
    | [.byte a, .byte b] => .ok (.gfmul a b)
    | _ => .error .wrongOperands
  | .substitute => twoVariants p fun inv args => match args with
    | [.byte x] => .ok (if inv then .invSubst x else .subst x)
    | _ => .error .wrongOperands
  | .rotWord => oneVariant p fun args => match args with
    | [.word w] => .ok (.rotWord w)
    | _ => .error .wrongOperands
  | .subWord => oneVariant p fun args => match args with
    | [.word w] => .ok (.subWord w)
    | _ => .error .wrongOperands
  | .roundConstant => oneVariant p fun args => match args with
    | [.index r] => rconIndex r .rconW
    | _ => .error .wrongOperands
  | .transform => oneVariant p fun args => match args with
    | [.word w, .index r] => rconIndex r (.kTransform w)
    | _ => .error .wrongOperands
  | .expand => oneVariant p fun args => match args with
    | [.bytes key] => .ok (.kExpand key)
    | _ => .error .wrongOperands
  | .roundKey => oneVariant p fun args => match args with
    | [.schedule wd, .index r] => roundKeyIndex r (.rKey wd)
    | _ => .error .wrongOperands
  | .subBytes => twoVariants p fun inv args => match args with
    | [.state x] => .ok (if inv then .invSubBytes x else .subBytes x)
    | _ => .error .wrongOperands
  | .shiftRows => twoVariants p fun inv args => match args with
    | [.state x] => .ok (if inv then .invShiftRows x else .shiftRows x)
    | _ => .error .wrongOperands
  | .mixColumns => twoVariants p fun inv args => match args with
    | [.state x] => .ok (if inv then .invMixColumns x else .mixColumns x)
    | _ => .error .wrongOperands
  | .addRoundKey => oneVariant p fun args => match args with
    | [.state x, .block rk] => .ok (.addRoundKey x rk)
    | _ => .error .wrongOperands
  | .load => oneVariant p fun args => match args with
    | [.bytes b] => .ok (.load b)
    | _ => .error .wrongOperands
  | .unload => oneVariant p fun args => match args with
    | [.state x] => .ok (.unload x)
    | _ => .error .wrongOperands
  | .cryptBlock => twoVariants p fun inv args => match args with
    | [.numbers b, .numbers key] => .ok (if inv then .decryptBlock b key else .encryptBlock b key)
    | _ => .error .wrongOperands

/-- The decoder, total on every encoded word; a word that is no instruction is rejected by the name of the reason. -/
def decode (e : Encoded) : Except DecodeError Instr :=
  match e with
  | .command w => .ok (decodeCommand w)
  | .microOp w => decodeMicroOp w
  | .primitive p => decodePrimitive p

/-! ## The encoder -/

/-- The encoding of a primitive with one variant. -/
def encodeOne (fn : PrimFn) (args : List Value) : Encoded := .primitive ⟨fn, none, args⟩

/-- The encoding of one variant of a primitive with two. -/
def encodeVariant (fn : PrimFn) (inverse : Bool) (args : List Value) : Encoded := .primitive ⟨fn, some inverse, args⟩

/-- The operands of `XOR` as values. -/
def xorArgs (ops : XorOperands) : List Value :=
  match ops with
  | .bytes a b => [.byte a, .byte b]
  | .words a b => [.word a, .word b]
  | .blocks a b => [.block a, .block b]
  | .states a b => [.state a, .state b]

/-- The encoder, from the tables of rules R81, R84 and R85. The operand fields that `RST` and `NOP` ignore (rule R83) are
encoded as zeros. -/
def encode (i : Instr) : Encoded :=
  match i with
  | .rst start dir => .command (commandWord (pinBits true start dir) 0 0)
  | .enc key block => .command (commandWord (pinBits false true false) key block)
  | .dec key block => .command (commandWord (pinBits false true true) key block)
  | .nop dir => .command (commandWord (pinBits false false dir) 0 0)
  | .expand d => .microOp (microOpWord d .expand)
  | .encInit => .microOp (microOpWord .encrypt .init)
  | .decInit => .microOp (microOpWord .decrypt .init)
  | .encRound => .microOp (microOpWord .encrypt .main)
  | .decRound => .microOp (microOpWord .decrypt .main)
  | .encFinal => .microOp (microOpWord .encrypt .final)
  | .decFinal => .microOp (microOpWord .decrypt .final)
  | .xor ops => encodeOne .xor (xorArgs ops)
  | .xtime v => encodeOne .xtime [.byte v]
  | .gfmul a b => encodeOne .multiply [.byte a, .byte b]
  | .subst x => encodeVariant .substitute false [.byte x]
  | .invSubst x => encodeVariant .substitute true [.byte x]
  | .rotWord w => encodeOne .rotWord [.word w]
  | .subWord w => encodeOne .subWord [.word w]
  | .rconW r => encodeOne .roundConstant [.index r.val]
  | .kTransform w r => encodeOne .transform [.word w, .index r.val]
  | .kExpand key => encodeOne .expand [.bytes key]
  | .rKey wd r => encodeOne .roundKey [.schedule wd, .index r.val]
  | .subBytes x => encodeVariant .subBytes false [.state x]
  | .invSubBytes x => encodeVariant .subBytes true [.state x]
  | .shiftRows x => encodeVariant .shiftRows false [.state x]
  | .invShiftRows x => encodeVariant .shiftRows true [.state x]
  | .mixColumns x => encodeVariant .mixColumns false [.state x]
  | .invMixColumns x => encodeVariant .mixColumns true [.state x]
  | .addRoundKey x rk => encodeOne .addRoundKey [.state x, .block rk]
  | .load b => encodeOne .load [.bytes b]
  | .unload x => encodeOne .unload [.state x]
  | .encryptBlock p key => encodeVariant .cryptBlock false [.numbers p, .numbers key]
  | .decryptBlock c key => encodeVariant .cryptBlock true [.numbers c, .numbers key]

/-! ## The opcode table's numbers -/

/-- The bits of an encoded instruction that the opcode table numbers: `{rst, start, dir}` of a command, `{DIR, PHASE}` of a
micro-operation, the `inverse` flag of a primitive that has one. -/
def Encoded.tableBits (e : Encoded) : Nat :=
  match e with
  | .command w => w.pins.toNat
  | .microOp w => w.toNat
  | .primitive p => match p.inverse with
    | none => 0
    | some b => b.toNat

/-- The number of bits of that field: the `width` of the table's row. -/
def Encoded.tableWidth (e : Encoded) : Nat :=
  match e with
  | .command _ => 3
  | .microOp _ => 4
  | .primitive p => match p.inverse with
    | none => 0
    | some _ => 1

/-- The encoded word that a number of the opcode table stands for. A field of 3 bits is a command, with operands of
zeros, and a field of 4 bits is a micro-operation. The table's number does not carry its format (log entry 15): where
the width is given in whole bytes, a number that fits the 3 pins is read as a command, which is what a host presents, and
a larger one as a micro-operation word. The flag alone (1 bit) and the empty encoding name no primitive. -/
def tableWord (nbits w : Nat) : Option Encoded :=
  if nbits = 3 ∨ (nbits = 8 ∧ w < 8) then
    if w < 8 then some (.command (commandWord (BitVec.ofNat 3 w) 0 0)) else none
  else if nbits = 4 ∨ nbits = 8 then
    if w < 16 then some (.microOp (BitVec.ofNat 4 w)) else none
  else none

/-- The instruction the decoder reads from a number of the opcode table. -/
def decodeTableWord (nbits w : Nat) : Option Instr :=
  match tableWord nbits w with
  | none => none
  | some e => (decode e).toOption

end Sys2Proof
end

