-- ==== Sys2Proof/Machine/Operands.lean ====
section
/-! DEFINITION. How every operand is assembled: the layouts of `20_memory.md` (rules R52 to R57), gathered in rule R86, and
the check of a byte sequence at the boundary of rules R241, R242 and R244. -/

namespace Sys2Proof.Machine

/-! ## Bytes of Words and blocks -/

/-- Byte `b` of a Word: `w[31-8b : 24-8b]`; byte 0 is the most significant (rule R52). -/
def wordByte (w : Word) (b : Fin 4) : Byte := w.extractLsb' (24 - 8 * b.val) 8

/-- `Word(b0, b1, b2, b3) = {b0, b1, b2, b3}` (rule R52). -/
def wordOfBytes (b0 b1 b2 b3 : Byte) : Word := b0 ++ b1 ++ b2 ++ b3

/-- Byte `n` of a block: bits `127-8n` down to `120-8n` (rule R53). -/
def blockByte (x : Block) (n : Fin 16) : Byte := x.extractLsb' (120 - 8 * n.val) 8

/-- The block of 16 bytes, byte 0 in the most significant position (rule R53). -/
def blockOfBytes (f : Fin 16 → Byte) : Block :=
  f 0 ++ f 1 ++ f 2 ++ f 3 ++ f 4 ++ f 5 ++ f 6 ++ f 7 ++ f 8 ++ f 9 ++ f 10 ++ f 11 ++ f 12 ++ f 13 ++ f 14 ++ f 15

/-- A sequence of 16 bytes as a block, byte 0 first (rule R53). -/
def blockOfList (l : List Byte) (h : l.length = 16) : Block :=
  blockOfBytes fun n => l[n.val]'(by have := n.isLt; omega)

/-- The 16 bytes of a block in stream order (rule R53). -/
def blockBytes (x : Block) : List Byte := List.ofFn (blockByte x)

/-! ## Cells of a State -/

/-- Cell `S[row][col]` (rule R11). -/
def cell (x : CipherState) (row col : Fin 4) : Byte :=
  match row.val, col.val with
  | 0, 0 => x.s00
  | 0, 1 => x.s01
  | 0, 2 => x.s02
  | 0, _ => x.s03
  | 1, 0 => x.s10
  | 1, 1 => x.s11
  | 1, 2 => x.s12
  | 1, _ => x.s13
  | 2, 0 => x.s20
  | 2, 1 => x.s21
  | 2, 2 => x.s22
  | 2, _ => x.s23
  | _, 0 => x.s30
  | _, 1 => x.s31
  | _, 2 => x.s32
  | _, _ => x.s33

/-- The State with the given cells: "for `r`, `c` in 0..3: `out[r][c] = f r c`", each read from the input only (rule
R170). -/
def ofCells (f : Fin 4 → Fin 4 → Byte) : CipherState where
  s00 := f 0 0
  s01 := f 0 1
  s02 := f 0 2
  s03 := f 0 3
  s10 := f 1 0
  s11 := f 1 1
  s12 := f 1 2
  s13 := f 1 3
  s20 := f 2 0
  s21 := f 2 1
  s22 := f 2 2
  s23 := f 2 3
  s30 := f 3 0
  s31 := f 3 1
  s32 := f 3 2
  s33 := f 3 3

/-- The place of cell `[row][col]` in the stream: byte `4*col + row` (rule R54). -/
def streamIndex (row col : Fin 4) : Fin 16 := ⟨4 * col.val + row.val, by omega⟩

/-- The row of byte `n`: `n mod 4` (rule R54). -/
def streamRow (n : Fin 16) : Fin 4 := ⟨n.val % 4, by omega⟩

/-- The column of byte `n`: `n div 4` (rule R54). -/
def streamCol (n : Fin 16) : Fin 4 := ⟨n.val / 4, by omega⟩

/-! ## Table indices, key words and round keys -/

/-- The table row of a byte: its high nibble `x[7:4]` (rule R56). -/
def tableRow (x : Byte) : Fin 16 := (x.extractLsb' 4 4).toFin

/-- The table column of a byte: its low nibble `x[3:0]` (rule R56). -/
def tableCol (x : Byte) : Fin 16 := (x.extractLsb' 0 4).toFin

/-- `W[a] = {KEY[4a], KEY[4a+1], KEY[4a+2], KEY[4a+3]}` (rule R57). -/
def keyWord (key : Block) (a : Fin 4) : Word :=
  wordOfBytes (blockByte key ⟨4 * a.val, by omega⟩) (blockByte key ⟨4 * a.val + 1, by omega⟩)
    (blockByte key ⟨4 * a.val + 2, by omega⟩) (blockByte key ⟨4 * a.val + 3, by omega⟩)

/-- Byte `4a+b` of round key `r`: byte `b` of `Wd[4r+a]` (rules R86, R155). -/
def roundKeyByte (wd : Schedule) (r : Fin 11) (n : Fin 16) : Byte :=
  wordByte (wd[4 * r.val + n.val / 4]'(by omega)) ⟨n.val % 4, by omega⟩

/-! ## The byte-sequence boundary -/

/-- One operand of 16 bytes: any other length is `InvalidLength`, with no padding and no truncation (rules R154, R200,
R241). -/
def checkBytes (l : List Byte) : Except BoundaryError Block :=
  if h : l.length = 16 then .ok (blockOfList l h) else .error .invalidLength

/-- The two operands of `encryptBlock` or `decryptBlock`, as sequences of numbers of any length. `InvalidLength` is
checked first, then `DomainViolation`, and both before any transform (rules R241, R242, R244). -/
def checkOperands (b key : List Nat) : Except BoundaryError (Block × Block) :=
  if h : b.length = 16 ∧ key.length = 16 then
    if (b.all fun n => decide (n ≤ 255)) && (key.all fun n => decide (n ≤ 255)) then
      .ok (blockOfList (b.map (BitVec.ofNat 8)) (by rw [List.length_map]; exact h.1),
        blockOfList (key.map (BitVec.ofNat 8)) (by rw [List.length_map]; exact h.2))
    else .error .domainViolation
  else .error .invalidLength

end Sys2Proof.Machine
end

