-- ==== Sys2Proof/Machine/State.lean ====
section
/-! DEFINITION. The machine's state as plain data: the registers of `10_state.md`, the optional key-schedule cache, and the
model's own fields that hold the host's side (what it will present, what a call returned) and two counters; the reasons a
step can stop; and the state after reset. -/

namespace Sys2Proof.Machine

/-- An operand of a host line (rule R89): 16 bytes written out, or `OUT`, the value read from `block_out` at that tick. -/
inductive Operand where
  | literal (b : Block)
  | out
  deriving DecidableEq, Repr

/-- One line of what the host does (rule R89). -/
inductive HostLine where
  /-- One tick: the pins `{rst, start, dir}` and the operand ports (rule R81). -/
  | drive (pins : BitVec 3) (key block : Operand)
  /-- `WAIT`: repeat `NOP` until the port `done` reads 1. -/
  | wait
  /-- `RTRIP key, block`: `ENC key, block`; `WAIT`; `DEC key, OUT`; `WAIT`. -/
  | rtrip (key block : Operand)
  /-- A call of a primitive by name (rules R85, R88). -/
  | call (p : PrimCall)
  deriving DecidableEq, Repr

/-- What the last call returned to its caller (rules R12, R245). -/
inductive Returned where
  | nothing
  | value (v : Value)
  /-- The error, "returned to the caller in place of the result" (rule R245). -/
  | error (e : BoundaryError)
  deriving DecidableEq, Repr

/-- The state of one engine and of the host in front of it. -/
structure State where
  /-- `ST`, 16 cells of 8 bits (rule R21). -/
  st : CipherState
  /-- `KEY`, 128 bits (rule R22). -/
  key : Block
  /-- `W[0..43]`, 44 Words (rule R23). -/
  w : Schedule
  /-- `DIR`, 1 bit (rule R25). -/
  dir : Direction
  /-- `PHASE`, 3 bits, five values occur (rule R27). -/
  phase : Phase
  /-- `RND`, 4 bits, values 0..10 (rule R28). -/
  rnd : Fin 11
  /-- `DONE`, 1 bit (rule R29). -/
  done : Bool
  /-- The key the schedule in `W` was expanded from, if the implementation caches it (rule R33); `none` is an empty cache. -/
  ksCache : Option Block
  /-- MODEL'S OWN: what the host will present, the next line first; when it is empty the host idles (log entry 2). -/
  lines : List HostLine
  /-- MODEL'S OWN: what the last call of a primitive returned (log entry 1). -/
  returned : Returned
  /-- MODEL'S OWN: the stalls left before the pending micro-operation is performed (rules R215, R282; log entry 8). -/
  stallsLeft : Nat
  /-- MODEL'S OWN: counts the steps, so that each free value of `Config` is a fresh one (log entry 19). -/
  freeIndex : Nat
  deriving DecidableEq, Repr

/-- Why the machine stops. -/
inductive Fault where
  /-- A micro-operation whose operand `RND` is none of those rule R84 gives it: a combination of `PHASE`, `RND` and `DIR`
  outside rule R34 (d), which "do not occur in any run from reset; no behaviour given" (U8 of
  `93_implementation_defined.md`). Raised by the six micro-operations that read `RND`. Safe: no claim about what follows
  can be proved. -/
  | illegalControlPosition
  deriving DecidableEq, Repr

/-- Why an instruction has no meaning. -/
inductive Refusal where
  /-- An instruction that has no meaning yet: raised by an arm of `exec` only. Safe. -/
  | notModelled (mnemonic : String)
  /-- The words fetched are no instruction, for the reason named: raised by the step when the host calls a primitive with
  an `inverse` flag or operands that rule R85 does not give it. Safe. -/
  | undecodable (e : DecodeError)
  deriving DecidableEq, Repr

/-- The contents of the data registers named by rule R35 as unspecified after reset. -/
def State.dataRegs (s : State) : DataRegs := { dir := s.dir, key := s.key, st := s.st, w := s.w }

/-- The state right after reset (rules R35, R271). `PHASE`, `RND`, `DONE` and the empty cache are the spec's values; `DIR`,
`KEY`, `ST` and `W` are unspecified there and are zero here (DESIGN CHOICE, unsafe: log entry 4). No host line is present
(log entry 2). -/
def State.reset : State where
  st := ⟨0, 0, 0, 0, 0, 0, 0, 0, 0, 0, 0, 0, 0, 0, 0, 0⟩
  key := 0
  w := Vector.replicate 44 0
  dir := .encrypt
  phase := .idle
  rnd := 0
  done := false
  ksCache := none
  lines := []
  returned := .nothing
  stallsLeft := 0
  freeIndex := 0

end Sys2Proof.Machine
end

