-- ==== Sys2Proof/Machine/Flags.lean ====
section
/-! DEFINITION. The status flags and the output ports: `DONE` is a register, `BUSY` is computed (rule R29), and `block_out`
is a view of `ST` while `DONE = 1` (rule R26). No instruction writes any other flag: the engine has none. -/

namespace Sys2Proof.Machine

/-- `BUSY = 1` if `PHASE != IDLE`, else 0 (rule R29). -/
def busy (s : State) : Bool := decide (s.phase ≠ .idle)

/-- `UNLOAD` of a State: byte `n` is cell `[n mod 4][n div 4]` (rule R201). -/
def unloadState (x : CipherState) : Block := blockOfBytes fun n => cell x (streamRow n) (streamCol n)

/-- The port `block_out`: the result while `DONE = 1`; while `DONE = 0` its value is unspecified, here a free value
(rules R26, R274; log entry 6). -/
def blockOut (s : State) : Block :=
  if s.done then unloadState s.st else Config.unspecifiedBlockOut s.freeIndex s.dataRegs

/-- The output ports (rule R26). -/
structure OutputPorts where
  blockOut : Block
  busy     : Bool
  done     : Bool
  deriving DecidableEq, Repr

/-- What the host reads at a tick. Reading has no side effect (rule R60). -/
def outputPorts (s : State) : OutputPorts := { blockOut := blockOut s, busy := busy s, done := s.done }

end Sys2Proof.Machine
end

