-- ==== Sys2Proof/Machine/Ops.lean ====
section
/-! DEFINITION. The named operations: every write of a register is one of these, each a whole step of the spec's pseudocode
(rule R60: the writes of one tick take effect as a whole); taking an error; and the host's side. -/

namespace Sys2Proof.Machine

/-- What a step answers. -/
abbrev Result := Host.Outcome State Fault Refusal

/-! ## Registers -/

/-- `LOAD` of a block: cell `[row][col]` is byte `4*col + row` (rule R200). -/
def loadBlock (b : Block) : CipherState := ofCells fun row col => blockByte b (streamIndex row col)

/-- The index of the round key that the first `AddRoundKey` of an operation uses (rules R204, R205). -/
def firstRound (d : Direction) : Fin 11 :=
  match d with
  | .encrypt => 0
  | .decrypt => 10

/-- The acceptance of a command: all writes of rules R204 and R205. -/
def State.accept (s : State) (d : Direction) (key block : Block) : State :=
  { s with key := key, dir := d, st := loadBlock block, done := false, rnd := firstRound d, phase := .expand }

/-- The write of the whole schedule by `EXPAND` (rule R207); a cache, where there is one, now holds `KEY` (rule R33). -/
def State.writeSchedule (s : State) (wd : Schedule) : State :=
  { s with w := wd, phase := .init, ksCache := if Config.ksCache then some s.key else none }

/-- The writes of an initial or main round: `ST` and the control transfer `(PHASE, RND) <- target` (rules R208 to R211). -/
def State.writeRound (s : State) (x : CipherState) (p : Phase) (r : Fin 11) : State :=
  { s with st := x, phase := p, rnd := r }

/-- The writes of the final round: `ST`, `DONE <- 1`, `PHASE <- IDLE`; `RND` keeps its value (rules R212, R213). -/
def State.finish (s : State) (x : CipherState) : State :=
  { s with st := x, done := true, phase := .idle }

/-- The reset operation: `PHASE`, `RND`, `DONE` get their values, the cache is emptied, and `DIR`, `KEY`, `ST`, `W` become
unspecified, here free values (rule R270; log entry 5). -/
def State.resetRegs (s : State) : State :=
  { s with
    phase := .idle
    rnd := 0
    done := false
    ksCache := none
    dir := (Config.afterReset s.freeIndex s.dataRegs).dir
    key := (Config.afterReset s.freeIndex s.dataRegs).key
    st := (Config.afterReset s.freeIndex s.dataRegs).st
    w := (Config.afterReset s.freeIndex s.dataRegs).w }

/-! ## Calls and errors -/

/-- What a call returns to its caller. No register of the engine changes: a primitive "reads no register and writes none"
(rule R130 and its likes; log entry 1). -/
def State.deliver (s : State) (r : Returned) : State := { s with returned := r }

/-- A primitive returns its result. -/
def returnValue (v : Value) (s : State) : Result := .next (s.deliver (.value v))

/-- Taking an error: "An error is returned to the caller in place of the result. Nothing is saved, no mode changes, no
handler address exists, no vector table, no stack. No engine state changes" (rule R245; `raise` of rule R12; log entry
3). The return from it needs nothing: "There is no return-from-trap and nothing to restore" (rule R246). -/
def raiseError (e : BoundaryError) (s : State) : Result := .next (s.deliver (.error e))

/-! ## The host's side -/

/-- One step of the machine begins: the host's line is used up and the next free value is a fresh one. -/
def State.consume (s : State) (rest : List HostLine) : State :=
  { s with lines := rest, freeIndex := s.freeIndex + 1 }

/-- A stall of the pending micro-operation: no register changes (rule R215). -/
def State.stall (s : State) : State := { s with stallsLeft := s.stallsLeft - 1 }

/-- How many ticks the micro-operation now pending will stall (rule R282: `LAT(u) - 1`; rule R33 for a cached key); 0 when
none is pending. -/
def State.pendingStalls (s : State) : Nat :=
  match s.phase, s.dir with
  | .idle, _ => 0
  | .expand, _ => if s.ksCache = some s.key then Config.stallCyclesOnHit else Config.stallCycles .expand
  | .init, .encrypt => Config.stallCycles .encInit
  | .init, .decrypt => Config.stallCycles .decInit
  | .main, .encrypt => Config.stallCycles .encRound
  | .main, .decrypt => Config.stallCycles .decRound
  | .final, .encrypt => Config.stallCycles .encFinal
  | .final, .decrypt => Config.stallCycles .decFinal

/-- A new micro-operation is pending, or none: count its stalls. -/
def State.arm (s : State) : State := { s with stallsLeft := s.pendingStalls }

end Sys2Proof.Machine
end

