-- ==== Sys2Proof/Machine/Tables.lean ====
section
/-! DEFINITION. The five constant tables (rules R30, R132, R133, R135 to R137). Their entries are the spec's; the spec has
them from general knowledge and checked them against the known-answer vector (log entry 18). A row of a 16x16 table is
written as one 128-bit number, its column `c` being byte `c` of it. -/

namespace Sys2Proof.Machine

/-- `SBOX`, rows 0 to f (rule R132). -/
def sboxRows : Vector Block 16 := #v[
  0x637c777bf26b6fc53001672bfed7ab76,
  0xca82c97dfa5947f0add4a2af9ca472c0,
  0xb7fd9326363ff7cc34a5e5f171d83115,
  0x04c723c31896059a071280e2eb27b275,
  0x09832c1a1b6e5aa0523bd6b329e32f84,
  0x53d100ed20fcb15b6acbbe394a4c58cf,
  0xd0efaafb434d338545f9027f503c9fa8,
  0x51a3408f929d38f5bcb6da2110fff3d2,
  0xcd0c13ec5f974417c4a77e3d645d1973,
  0x60814fdc222a908846eeb814de5e0bdb,
  0xe0323a0a4906245cc2d3ac629195e479,
  0xe7c8376d8dd54ea96c56f4ea657aae08,
  0xba78252e1ca6b4c6e8dd741f4bbd8b8a,
  0x703eb5664803f60e613557b986c11d9e,
  0xe1f8981169d98e949b1e87e9ce5528df,
  0x8ca1890dbfe6426841992d0fb054bb16]

/-- `INV_SBOX`, rows 0 to f (rule R133). -/
def invSboxRows : Vector Block 16 := #v[
  0x52096ad53036a538bf40a39e81f3d7fb,
  0x7ce339829b2fff87348e4344c4dee9cb,
  0x547b9432a6c2233dee4c950b42fac34e,
  0x082ea16628d924b2765ba2496d8bd125,
  0x72f8f66486689816d4a45ccc5d65b692,
  0x6c704850fdedb9da5e154657a78d9d84,
  0x90d8ab008cbcd30af7e45805b8b34506,
  0xd02c1e8fca3f0f02c1afbd0301138a6b,
  0x3a9111414f67dcea97f2cfcef0b4e673,
  0x96ac7422e7ad3585e2f937e81c75df6e,
  0x47f11a711d29c5896fb7620eaa18be1b,
  0xfc563e4bc6d279209adbc0fe78cd5af4,
  0x1fdda8338807c731b11210592780ec5f,
  0x60517fa919b54a0d2de57a9f93c99cef,
  0xa0e03b4dae2af5b0c8ebbb3c83539961,
  0x172b047eba77d626e169146355210c7d]

/-- `MemRead(SBOX:(16*row + col), 1)` (rules R12, R130). -/
def readSbox (row col : Fin 16) : Byte := blockByte sboxRows[row] col

/-- `MemRead(INV_SBOX:(16*row + col), 1)` (rules R12, R131). -/
def readInvSbox (row col : Fin 16) : Byte := blockByte invSboxRows[row] col

/-- The round-constant bytes `rc[0..9]` (rule R135). -/
def rconBytes : Vector Byte 10 := #v[0x01, 0x02, 0x04, 0x08, 0x10, 0x20, 0x40, 0x80, 0x1b, 0x36]

/-- `MemRead(RCON:r, 4)`: the byte in the top byte of a Word and zero elsewhere (rules R135, R152). -/
def readRcon (r : Fin 10) : Word := wordOfBytes rconBytes[r] 0 0 0

/-- `MIX`, row by row (rule R136). -/
def mixRows : Vector (Vector Byte 4) 4 := #v[
  #v[0x02, 0x03, 0x01, 0x01],
  #v[0x01, 0x02, 0x03, 0x01],
  #v[0x01, 0x01, 0x02, 0x03],
  #v[0x03, 0x01, 0x01, 0x02]]

/-- `INV_MIX`, row by row (rule R137). -/
def invMixRows : Vector (Vector Byte 4) 4 := #v[
  #v[0x0e, 0x0b, 0x0d, 0x09],
  #v[0x09, 0x0e, 0x0b, 0x0d],
  #v[0x0d, 0x09, 0x0e, 0x0b],
  #v[0x0b, 0x0d, 0x09, 0x0e]]

/-- `MIX[i][j]` (rule R136). -/
def readMix (i j : Fin 4) : Byte := mixRows[i][j]

/-- `INV_MIX[i][j]` (rule R137). -/
def readInvMix (i j : Fin 4) : Byte := invMixRows[i][j]

end Sys2Proof.Machine
end

