-- ==== Sys2Proof/Machine/Substitution.lean ====
section
/-! DEFINITION. The second family: `SUBST`, `INVSUBST` (`41_substitution_tables.md`): a pure lookup in a full table. -/

namespace Sys2Proof.Machine

/-- `SUBST`: the entry at row `x[7:4]`, column `x[3:0]` of `SBOX` (rule R130). -/
def subst (x : Byte) : Byte := readSbox (tableRow x) (tableCol x)

/-- `INVSUBST`: the same with `INV_SBOX` (rule R131). -/
def invSubst (x : Byte) : Byte := readInvSbox (tableRow x) (tableCol x)

/-- `SUBST` (rule R130). -/
def execSubst (x : Byte) (s : State) : Result := returnValue (.byte (subst x)) s

/-- `INVSUBST` (rule R131). -/
def execInvSubst (x : Byte) (s : State) : Result := returnValue (.byte (invSubst x)) s

end Sys2Proof.Machine
end

