-- ==== Sys2Proof/Machine/KeyExpansion.lean ====
section
/-! DEFINITION. The third family: `ROTWORD`, `SUBWORD`, `RCONW`, `KTRANSFORM`, `KEXPAND`, `RKEY` (`42_key_expansion.md`). -/

namespace Sys2Proof.Machine

/-! ## The functions -/

/-- `ROTWORD`: the top byte moves to the low byte position, the rest moves up (rule R150). -/
def rotWord (w : Word) : Word := wordOfBytes (wordByte w 1) (wordByte w 2) (wordByte w 3) (wordByte w 0)

/-- `SUBWORD`: `SUBST` of each byte, each in its position (rule R151). -/
def subWord (w : Word) : Word :=
  wordOfBytes (subst (wordByte w 0)) (subst (wordByte w 1)) (subst (wordByte w 2)) (subst (wordByte w 3))

/-- `RCONW`: the round-constant Word (rule R152). -/
def rconW (r : Fin 10) : Word := readRcon r

/-- `KTRANSFORM`: rotate first, substitute second, constant last (rule R153). -/
def kTransform (w : Word) (r : Fin 10) : Word := subWord (rotWord w) ^^^ rconW r

/-- `W[i]` from `W[i-1]` and `W[i-4]`, for `i` in 4..43 (rule R154). -/
def nextWord (i : Nat) (hi : i < 44) (prev back4 : Word) : Word :=
  if i % 4 = 0 then kTransform prev ⟨i / 4 - 1, by omega⟩ ^^^ back4 else prev ^^^ back4

/-- The first `n + 4` words of the schedule, made in increasing order (rule R154). -/
def scheduleWords (key : Block) : (n : Nat) → (h : n ≤ 40) → Vector Word (n + 4)
  | 0, _ => #v[keyWord key 0, keyWord key 1, keyWord key 2, keyWord key 3]
  | n + 1, h =>
    let wd := scheduleWords key n (by omega)
    wd.push (nextWord (n + 4) (by omega) wd[n + 3] wd[n])

/-- `KEXPAND`: the 44 words of the schedule of a key (rule R154). -/
@[irreducible] def kExpand (key : Block) : Schedule := scheduleWords key 40 (Nat.le_refl 40)

/-- `RKEY`: round key `r` as 16 bytes (rule R155). -/
def rKey (wd : Schedule) (r : Fin 11) : Block := blockOfBytes (roundKeyByte wd r)

/-! ## The meanings -/

/-- `ROTWORD` (rule R150). -/
def execRotWord (w : Word) (s : State) : Result := returnValue (.word (rotWord w)) s

/-- `SUBWORD` (rule R151). -/
def execSubWord (w : Word) (s : State) : Result := returnValue (.word (subWord w)) s

/-- `RCONW` (rule R152). -/
def execRconW (r : Fin 10) (s : State) : Result := returnValue (.word (rconW r)) s

/-- `KTRANSFORM` (rule R153). -/
def execKTransform (w : Word) (r : Fin 10) (s : State) : Result := returnValue (.word (kTransform w r)) s

/-- `KEXPAND`: "a key of any other length is a precondition violation", at a byte-sequence boundary `InvalidLength` (rule
R154). -/
def execKExpand (key : List Byte) (s : State) : Result :=
  match checkBytes key with
  | .error e => raiseError e s
  | .ok k => returnValue (.schedule (kExpand k)) s

/-- `RKEY` (rule R155). -/
def execRKey (wd : Schedule) (r : Fin 11) (s : State) : Result := returnValue (.block (rKey wd r)) s

end Sys2Proof.Machine
end

