-- ==== Sys2Proof/Machine/GfArithmetic.lean ====
section
/-! DEFINITION. The first family: `XOR`, `XTIME`, `GFMUL` (`40_gf_arithmetic.md`). Pure functions; they read no register,
write none, set no flag and raise nothing. -/

namespace Sys2Proof.Machine

/-! ## The functions -/

/-- `XOR` of two values of the same width, bit by bit; on a State, cell by cell (rule R110). -/
def xorValue (ops : XorOperands) : Value :=
  match ops with
  | .bytes a b => .byte (a ^^^ b)
  | .words a b => .word (a ^^^ b)
  | .blocks a b => .block (a ^^^ b)
  | .states a b => .state (ofCells fun r c => cell a r c ^^^ cell b r c)

/-- `XTIME`: a shift by one bit within a byte; if the bit shifted out was 1, XOR with the reduction constant (rule R111). -/
def xtime (v : Byte) : Byte :=
  if v.getLsbD 7 then (v <<< 1) ^^^ Config.gfReduce else v <<< 1

/-- The multiply loop from iteration `i` on, with `n` iterations to go: if `a[i]` is set, `var` is accumulated; then `var`
is doubled (rule R112). -/
def gfmulLoop (a : Byte) : (n i : Nat) → (var acc : Byte) → Byte
  | 0, _, _, acc => acc
  | n + 1, i, var, acc => gfmulLoop a n (i + 1) (xtime var) (if a.getLsbD i then acc ^^^ var else acc)

/-- `GFMUL`: the document's `multiply`, 8 iterations from `acc = 0` and `var = b` (rule R112). -/
def gfmul (a b : Byte) : Byte := gfmulLoop a Config.gfIterations 0 b 0

/-! ## The meanings -/

/-- `XOR` (rule R110). -/
def execXor (ops : XorOperands) (s : State) : Result := returnValue (xorValue ops) s

/-- `XTIME` (rule R111). -/
def execXtime (v : Byte) (s : State) : Result := returnValue (.byte (xtime v)) s

/-- `GFMUL` (rule R112). -/
def execGfmul (a b : Byte) (s : State) : Result := returnValue (.byte (gfmul a b)) s

end Sys2Proof.Machine
end

