-- ==== Sys2Proof/Machine/RoundTransforms.lean ====
section
/-! DEFINITION. The fourth family: the four round transforms and their inverses (`43_round_transforms.md`). Every output
cell is computed from the input State (rule R170). -/

namespace Sys2Proof.Machine

/-! ## The functions -/

/-- `SUBBYTES`: `SUBST` of every cell (rule R171). -/
def subBytes (x : CipherState) : CipherState := ofCells fun r c => subst (cell x r c)

/-- `INVSUBBYTES`: `INVSUBST` of every cell (rule R172). -/
def invSubBytes (x : CipherState) : CipherState := ofCells fun r c => invSubst (cell x r c)

/-- `SHIFTROWS`: `out[r][c] = S[r][(c + r) mod 4]`; the addition of `Fin 4` is modulo 4 (rule R173). -/
def shiftRows (x : CipherState) : CipherState := ofCells fun r c => cell x r (c + r)

/-- `INVSHIFTROWS`: `out[r][c] = S[r][(c - r + 4) mod 4]`; the subtraction of `Fin 4` is modulo 4 (rule R174). -/
def invShiftRows (x : CipherState) : CipherState := ofCells fun r c => cell x r (c - r)

/-- Each output column `k` is the matrix times input column `k`: `out[i][k]` is the XOR over `j` of
`GFMUL(matrix[i][j], in[j][k])` (rules R175, R176). -/
def mixBy (matrix : Fin 4 → Fin 4 → Byte) (x : CipherState) : CipherState :=
  ofCells fun i k =>
    gfmul (matrix i 0) (cell x 0 k) ^^^ gfmul (matrix i 1) (cell x 1 k)
      ^^^ gfmul (matrix i 2) (cell x 2 k) ^^^ gfmul (matrix i 3) (cell x 3 k)

/-- `MIXCOLUMNS` (rule R175). -/
def mixColumns (x : CipherState) : CipherState := mixBy readMix x

/-- `INVMIXCOLUMNS` (rule R176). -/
def invMixColumns (x : CipherState) : CipherState := mixBy readInvMix x

/-- `ADDROUNDKEY`: `out[b][a] = S[b][a] ^ rk[4a + b]`, row `b`, column `a` (rules R55, R177). -/
def addRoundKey (x : CipherState) (rk : Block) : CipherState :=
  ofCells fun b a => cell x b a ^^^ blockByte rk (streamIndex b a)

/-! ## The meanings -/

/-- `SUBBYTES` (rule R171). -/
def execSubBytes (x : CipherState) (s : State) : Result := returnValue (.state (subBytes x)) s

/-- `INVSUBBYTES` (rule R172). -/
def execInvSubBytes (x : CipherState) (s : State) : Result := returnValue (.state (invSubBytes x)) s

/-- `SHIFTROWS` (rule R173). -/
def execShiftRows (x : CipherState) (s : State) : Result := returnValue (.state (shiftRows x)) s

/-- `INVSHIFTROWS` (rule R174). -/
def execInvShiftRows (x : CipherState) (s : State) : Result := returnValue (.state (invShiftRows x)) s

/-- `MIXCOLUMNS` (rule R175). -/
def execMixColumns (x : CipherState) (s : State) : Result := returnValue (.state (mixColumns x)) s

/-- `INVMIXCOLUMNS` (rule R176). -/
def execInvMixColumns (x : CipherState) (s : State) : Result := returnValue (.state (invMixColumns x)) s

/-- `ADDROUNDKEY` (rule R177). -/
def execAddRoundKey (x : CipherState) (rk : Block) (s : State) : Result :=
  returnValue (.state (addRoundKey x rk)) s

end Sys2Proof.Machine
end

