-- ==== Sys2Proof/Machine/CipherBlock.lean ====
section
/-! DEFINITION. The fifth family, first part: `LOAD`, `UNLOAD` and the two whole-block functions (`44_cipher_engine.md`,
rules R200 to R203), with the rounds that the micro-operations share. -/

namespace Sys2Proof.Machine

/-! ## The rounds -/

/-- A main round of encryption (step 3 of rule R202). -/
def encRoundFn (x : CipherState) (rk : Block) : CipherState :=
  addRoundKey (mixColumns (shiftRows (subBytes x))) rk

/-- The final round of encryption, with no `MIXCOLUMNS` (step 4 of rule R202). -/
def encFinalFn (x : CipherState) (rk : Block) : CipherState := addRoundKey (shiftRows (subBytes x)) rk

/-- A main round of decryption: the round key is added before the inverse mix (step 3 of rule R203). -/
def decRoundFn (x : CipherState) (rk : Block) : CipherState :=
  invMixColumns (addRoundKey (invSubBytes (invShiftRows x)) rk)

/-- The final round of decryption, with no `INVMIXCOLUMNS` (step 4 of rule R203). -/
def decFinalFn (x : CipherState) (rk : Block) : CipherState := addRoundKey (invSubBytes (invShiftRows x)) rk

/-! ## The whole-block functions -/

/-- `ENCRYPTBLOCK`: the document's five steps (rule R202). -/
def encryptBlock (p key : Block) : Block :=
  let wd := kExpand key
  let x0 := addRoundKey (loadBlock p) (rKey wd 0)
  let x9 := [1, 2, 3, 4, 5, 6, 7, 8, 9].foldl (fun x i => encRoundFn x (rKey wd i)) x0
  unloadState (encFinalFn x9 (rKey wd 10))

/-- `DECRYPTBLOCK`: the document's five steps, with the round keys in the opposite order (rule R203). -/
def decryptBlock (c key : Block) : Block :=
  let wd := kExpand key
  let x10 := addRoundKey (loadBlock c) (rKey wd 10)
  let x1 := [9, 8, 7, 6, 5, 4, 3, 2, 1].foldl (fun x i => decRoundFn x (rKey wd i)) x10
  unloadState (decFinalFn x1 (rKey wd 0))

/-! ## The meanings -/

/-- `LOAD`: any length but 16 is `InvalidLength` at a byte-sequence boundary (rule R200). -/
def execLoad (b : List Byte) (s : State) : Result :=
  match checkBytes b with
  | .error e => raiseError e s
  | .ok x => returnValue (.state (loadBlock x)) s

/-- `UNLOAD` (rule R201). -/
def execUnload (x : CipherState) (s : State) : Result := returnValue (.block (unloadState x)) s

/-- `ENCRYPTBLOCK`, called through the byte-sequence boundary of rule R241 (rule R202). -/
def execEncryptBlock (p key : List Nat) (s : State) : Result :=
  match checkOperands p key with
  | .error e => raiseError e s
  | .ok (pb, kb) => returnValue (.block (encryptBlock pb kb)) s

/-- `DECRYPTBLOCK`, called through the byte-sequence boundary of rule R241 (rule R203). -/
def execDecryptBlock (c key : List Nat) (s : State) : Result :=
  match checkOperands c key with
  | .error e => raiseError e s
  | .ok (cb, kb) => returnValue (.block (decryptBlock cb kb)) s

end Sys2Proof.Machine
end

