-- ==== Sys2Proof/Machine/Commands.lean ====
section
/-! DEFINITION. The four commands (rules R204 to R206 of `44_cipher_engine.md`, rule R270 of `70_reset_and_hazards.md`): what
the host's command itself does. That a pending micro-operation still happens at the tick of a `NOP` or of an ignored
command is the step's (rule R215, `Machine/Tick.lean`). -/

namespace Sys2Proof.Machine

/-- `ENC`: accepted when `PHASE = IDLE`; otherwise ignored, with the effect of `NOP` (rules R204, R206). -/
def execEnc (key block : Block) (s : State) : Result :=
  if busy s then .next s else .next (s.accept .encrypt key block)

/-- `DEC`: accepted when `PHASE = IDLE`; otherwise ignored, with the effect of `NOP` (rules R205, R206). -/
def execDec (key block : Block) (s : State) : Result :=
  if busy s then .next s else .next (s.accept .decrypt key block)

/-- `NOP`: the host changes nothing (rule R206). -/
def execNop (_dir : Bool) (s : State) : Result := .next s

/-- `RST`: the reset operation, in any state; `start` and `dir` are ignored (rule R270). -/
def execRst (_start _dir : Bool) (s : State) : Result := .next s.resetRegs

end Sys2Proof.Machine
end

