-- ==== Sys2Proof/Machine/MicroOps.lean ====
section
/-! DEFINITION. The seven micro-operations (rules R207 to R213 of `44_cipher_engine.md`). The operand `RND` has the values
rule R84 gives it; any other combination of control registers "does not occur" and has no behaviour (U8 of
`93_implementation_defined.md`), and there the machine stops (log entry 11). -/

namespace Sys2Proof.Machine

/-- `EXPAND`: all 44 words are written in this one step; neither `DIR` nor `RND` is read (rule R207). -/
def execExpand (_dir : Direction) (s : State) : Result := .next (s.writeSchedule (kExpand s.key))

/-- `ENC_INIT`, with `RND = 0` (rule R208). -/
def execEncInit (s : State) : Result :=
  if s.rnd = 0 then .next (s.writeRound (addRoundKey s.st (rKey s.w s.rnd)) .main 1)
  else .fault .illegalControlPosition

/-- `DEC_INIT`, with `RND = 10` (rule R209). -/
def execDecInit (s : State) : Result :=
  if s.rnd = 10 then .next (s.writeRound (addRoundKey s.st (rKey s.w s.rnd)) .main 9)
  else .fault .illegalControlPosition

/-- `ENC_ROUND`, with `RND` in 1..9; the test uses the value before the increment (rule R210). -/
def execEncRound (s : State) : Result :=
  if 1 ≤ s.rnd ∧ s.rnd ≤ 9 then
    .next (s.writeRound (encRoundFn s.st (rKey s.w s.rnd)) (if s.rnd = 9 then .final else .main) (s.rnd + 1))
  else .fault .illegalControlPosition

/-- `DEC_ROUND`, with `RND` in 9..1; the test uses the value before the decrement (rule R211). -/
def execDecRound (s : State) : Result :=
  if 1 ≤ s.rnd ∧ s.rnd ≤ 9 then
    .next (s.writeRound (decRoundFn s.st (rKey s.w s.rnd)) (if s.rnd = 1 then .final else .main) (s.rnd - 1))
  else .fault .illegalControlPosition

/-- `ENC_FINAL`, with `RND = 10` (rule R212). -/
def execEncFinal (s : State) : Result :=
  if s.rnd = 10 then .next (s.finish (encFinalFn s.st (rKey s.w s.rnd)))
  else .fault .illegalControlPosition

/-- `DEC_FINAL`, with `RND = 0` (rule R213). -/
def execDecFinal (s : State) : Result :=
  if s.rnd = 0 then .next (s.finish (decFinalFn s.st (rKey s.w s.rnd)))
  else .fault .illegalControlPosition

end Sys2Proof.Machine
end

