-- ==== Sys2Proof/Machine/Dispatch.lean ====
section
/-! DEFINITION. One arm for each instruction. -/

namespace Sys2Proof.Machine

def exec (i : Instr) (s : State) : Host.Outcome State Fault Refusal :=
  match i with
  -- commands
  | .rst start dir => Sys2Proof.Machine.execRst start dir s
  | .enc key block => Sys2Proof.Machine.execEnc key block s
  | .dec key block => Sys2Proof.Machine.execDec key block s
  | .nop dir => Sys2Proof.Machine.execNop dir s
  -- micro-operations
  | .expand dir => Sys2Proof.Machine.execExpand dir s
  | .encInit => Sys2Proof.Machine.execEncInit s
  | .decInit => Sys2Proof.Machine.execDecInit s
  | .encRound => Sys2Proof.Machine.execEncRound s
  | .decRound => Sys2Proof.Machine.execDecRound s
  | .encFinal => Sys2Proof.Machine.execEncFinal s
  | .decFinal => Sys2Proof.Machine.execDecFinal s
  -- primitives
  | .xor ops => Sys2Proof.Machine.execXor ops s
  | .xtime v => Sys2Proof.Machine.execXtime v s
  | .gfmul a b => Sys2Proof.Machine.execGfmul a b s
  | .subst x => Sys2Proof.Machine.execSubst x s
  | .invSubst x => Sys2Proof.Machine.execInvSubst x s
  | .rotWord w => Sys2Proof.Machine.execRotWord w s
  | .subWord w => Sys2Proof.Machine.execSubWord w s
  | .rconW r => Sys2Proof.Machine.execRconW r s
  | .kTransform w r => Sys2Proof.Machine.execKTransform w r s
  | .kExpand key => Sys2Proof.Machine.execKExpand key s
  | .rKey wd r => Sys2Proof.Machine.execRKey wd r s
  | .subBytes x => Sys2Proof.Machine.execSubBytes x s
  | .invSubBytes x => Sys2Proof.Machine.execInvSubBytes x s
  | .shiftRows x => Sys2Proof.Machine.execShiftRows x s
  | .invShiftRows x => Sys2Proof.Machine.execInvShiftRows x s
  | .mixColumns x => Sys2Proof.Machine.execMixColumns x s
  | .invMixColumns x => Sys2Proof.Machine.execInvMixColumns x s
  | .addRoundKey x rk => Sys2Proof.Machine.execAddRoundKey x rk s
  | .load b => Sys2Proof.Machine.execLoad b s
  | .unload x => Sys2Proof.Machine.execUnload x s
  | .encryptBlock p key => Sys2Proof.Machine.execEncryptBlock p key s
  | .decryptBlock c key => Sys2Proof.Machine.execDecryptBlock c key s

end Sys2Proof.Machine
end

