-- ==== Sys2Proof/Machine/HostProgram.lean ====
section
/-! DEFINITION. The host's side of a tick: which pins and operands it presents, by the one-line-per-tick syntax of rule R89
(`30_encoding.md`) with its pseudo-instructions `WAIT`, `OUT` and `RTRIP`. -/

namespace Sys2Proof.Machine

/-- What the host does at one step: it drives the pins, or it calls a primitive. -/
inductive Presented where
  | pins (pins : BitVec 3) (key block : Operand)
  | call (p : PrimCall)
  deriving DecidableEq, Repr

/-- The pins of `NOP`, `{rst, start, dir} = 0b000` (rule R89). -/
def nopPins : BitVec 3 := pinBits false false false

/-- The pins of `ENC`, `0b010` (rule R89). -/
def encPins : BitVec 3 := pinBits false true false

/-- The pins of `DEC`, `0b011` (rule R89). -/
def decPins : BitVec 3 := pinBits false true true

/-- The host idles: `NOP`, with operands that nothing reads (rule R83). -/
def idlePins : Presented := .pins nopPins (.literal 0) (.literal 0)

/-- What the host presents, given the port `done`, and the lines that are left (rule R89). `WAIT` is `NOP` until `done`
reads 1, and no tick at all if it already does; `RTRIP` is its expansion. With no line left the host idles (log entry
2). -/
def present (done : Bool) : List HostLine → Presented × List HostLine
  | [] => (idlePins, [])
  | .drive pins key block :: rest => (.pins pins key block, rest)
  | .wait :: rest => if done then present done rest else (idlePins, .wait :: rest)
  | .rtrip key block :: rest =>
    (.pins encPins key block, .wait :: .drive decPins key .out :: .wait :: rest)
  | .call p :: rest => (.call p, rest)

/-- The value of an operand at this tick: `OUT` is what is read from `block_out` (rule R89; while `done = 0` that is a
free value: log entry 7). -/
def operandValue (s : State) (o : Operand) : Block :=
  match o with
  | .literal b => b
  | .out => blockOut s

/-- The command word on the input ports at this tick (rule R81). -/
def presentedWord (s : State) (pins : BitVec 3) (key block : Operand) : CommandWord :=
  commandWord pins (operandValue s key) (operandValue s block)

end Sys2Proof.Machine
end

