-- ==== Sys2Proof/Machine/Tick.lean ====
section
/-! DEFINITION. The step relation (rule R215 of `44_cipher_engine.md`): one tick takes the state and the command word on
the ports and gives the next state. -/

namespace Sys2Proof.Machine

/-- After a command or a micro-operation was performed: the stalls of the one now pending are counted (rule R282). -/
def armNext (r : Result) : Result :=
  match r with
  | .next t => .next t.arm
  | .fault f => .fault f
  | .refused r => .refused r

/-- The engine's own step while `PHASE != IDLE`: the pending micro-operation stalls, or the one selected by `{DIR, PHASE}`
is decoded and performed (rules R84, R215). -/
def engineStep (s : State) : Result :=
  if s.stallsLeft ≠ 0 then .next s.stall
  else match decodeMicroOp (microOpWord s.dir s.phase) with
    | .ok u => armNext (exec u s)
    | .error e => .refused (.undecodable e)

/-- One tick (rule R215): `rst` wins over everything; while the engine is idle the command is performed; while it is busy
the host's command and operands are ignored (rules R206, R273). -/
def tick (w : CommandWord) (s : State) : Result :=
  if w.pins.getLsbD 2 || !busy s then armNext (exec (decodeCommand w) s) else engineStep s

/-- A call of a primitive by name: no tick passes in the engine (rule R85; log entry 20). -/
def callStep (p : PrimCall) (s : State) : Result :=
  match decodePrimitive p with
  | .ok i => exec i s
  | .error e => .refused (.undecodable e)

/-- One step of the machine: what the host presents is fetched from its lines, decoded and performed. -/
def machineStep (s : State) : Result :=
  match present s.done s.lines with
  | (.pins pins key block, rest) => tick (presentedWord s pins key block) (s.consume rest)
  | (.call p, rest) => callStep p (s.consume rest)

/-- The control position at which the sequencer selects a micro-operation, with the first value of `RND` that rule R84
gives it. -/
def positionFor (s : State) (d : Direction) (p : Phase) : State :=
  { s with
    dir := d
    phase := p
    rnd := match p, d with
      | .main, .encrypt => 1
      | .main, .decrypt => 9
      | .final, .encrypt => 10
      | .final, .decrypt => 0
      | _, .encrypt => 0
      | _, .decrypt => 10
    stallsLeft := 0
    lines := .drive nopPins (.literal 0) (.literal 0) :: s.lines }

/-- The state whose next step fetches the given word: a command on the ports of an idle engine, or the control position
that selects the micro-operation (log entry 16). -/
def placeWord (s : State) (e : Encoded) : State :=
  match e with
  | .command w => { s with phase := .idle, lines := .drive w.pins (.literal w.key) (.literal w.block) :: s.lines }
  | .microOp w =>
    match phaseOfBits (w.extractLsb' 0 3) with
    | some p => positionFor s (directionOfBit (w.getLsbD 3)) p
    | none => s
  | .primitive p => { s with lines := .call p :: s.lines }

end Sys2Proof.Machine
end

