-- ==== Sys2Proof/Machine/Step.lean ====
section
/-! DEFINITION. The one step function, and the placing of a word where it fetches. -/

namespace Sys2Proof.Machine

/-- One step of the machine (rule R215; `Machine/Tick.lean`). -/
def step (s : State) : Host.Outcome State Fault Refusal := machineStep s

/-- `s` with the instruction of a number of the opcode table where the next step fetches; unchanged if the number stands
for no encoded word (log entries 15 and 16). -/
def State.withFetchWord (s : State) (nbits w : Nat) : State :=
  match tableWord nbits w with
  | some e => placeWord s e
  | none => s

end Sys2Proof.Machine
end

