-- ==== Sys2Proof/Safety.lean ====
section
/-! DEFINITION. What counts as a safe state: the invariants of rule R34 (`10_state.md`), in the terms the claims use. -/

namespace Sys2Proof.Machine

/-- Rule R34 (b): while the schedule is in use, and while a result stands, `W = KEXPAND(KEY)`. -/
def ScheduleOk (s : State) : Prop :=
  (s.phase = .init ∨ s.phase = .main ∨ s.phase = .final ∨ s.done = true) → s.w = kExpand s.key

/-- Rule R34 (d), with rule R214's rows for `EXPAND`: the values of `RND` in each phase and direction. -/
def PositionOk (s : State) : Prop :=
  match s.phase with
  | .idle => True
  | .expand => s.rnd = firstRound s.dir
  | .init => s.rnd = firstRound s.dir
  | .main => 1 ≤ s.rnd ∧ s.rnd ≤ 9
  | .final => s.rnd = match s.dir with
    | .encrypt => 10
    | .decrypt => 0

/-- Rule R33: what a cache holds is the key the schedule in `W` was expanded from. -/
def CacheOk (s : State) : Prop := ∀ k, s.ksCache = some k → s.w = kExpand k

/-- The invariant of rule R34, with the cache's. -/
structure State.Inv (s : State) : Prop where
  /-- Rule R34 (b). -/
  schedule : ScheduleOk s
  /-- Rule R34 (c): `DONE = 1` implies `PHASE = IDLE`. -/
  doneIdle : s.done = true → s.phase = .idle
  /-- Rule R34 (d). -/
  position : PositionOk s
  /-- Rule R33. -/
  cache : CacheOk s

/-- A host that only drives the pins: every line is one of rule R89, none calls a primitive. -/
def HostLine.drives (l : HostLine) : Bool :=
  match l with
  | .drive _ _ _ => true
  | .wait => true
  | .rtrip _ _ => true
  | .call _ => false

/-- A host line that raises no `rst` and calls no primitive. -/
def HostLine.quiet (l : HostLine) : Bool :=
  match l with
  | .drive pins _ _ => !pins.getLsbD 2
  | .wait => true
  | .rtrip _ _ => true
  | .call _ => false

end Sys2Proof.Machine
end

