-- ==== Sys2Proof/WellFormed.lean ====
section
/-! DEFINITION. Which instructions meet the document's preconditions (rules R240 to R242 of `60_exceptions.md`). What a
type of `Syntax` already rules out (an index outside `RCON` or outside the eleven round keys, a port operand of another
width) needs no check; what can be wrong is a byte sequence. An ill-formed instruction still has a meaning: it raises the
error the spec names. -/

namespace Sys2Proof

/-- Exactly 16 elements (rule R241). -/
def lengthOk {α : Type} (l : List α) : Bool := l.length == Config.blockBytes

/-- Every element in 0..255 (rule R242). -/
def domainOk (l : List Nat) : Bool := l.all fun n => decide (n ≤ 255)

/-- The preconditions of an instruction's operands. -/
def Instr.wellFormed (i : Instr) : Bool :=
  match i with
  | .rst _ _ => true
  | .enc _ _ => true
  | .dec _ _ => true
  | .nop _ => true
  | .expand _ => true
  | .encInit => true
  | .decInit => true
  | .encRound => true
  | .decRound => true
  | .encFinal => true
  | .decFinal => true
  | .xor _ => true
  | .xtime _ => true
  | .gfmul _ _ => true
  | .subst _ => true
  | .invSubst _ => true
  | .rotWord _ => true
  | .subWord _ => true
  | .rconW _ => true
  | .kTransform _ _ => true
  | .kExpand key => lengthOk key
  | .rKey _ _ => true
  | .subBytes _ => true
  | .invSubBytes _ => true
  | .shiftRows _ => true
  | .invShiftRows _ => true
  | .mixColumns _ => true
  | .invMixColumns _ => true
  | .addRoundKey _ _ => true
  | .load b => lengthOk b
  | .unload _ => true
  | .encryptBlock p key => lengthOk p && lengthOk key && domainOk p && domainOk key
  | .decryptBlock c key => lengthOk c && lengthOk key && domainOk c && domainOk key

end Sys2Proof
end

