-- ==== Sys2Proof/Certificates/Slice0/Obligations.lean ====
section
/-! DEFINITION. The statements for the provers, from the numbered rules of the spec. A statement that ends in
`{ s with … }` gives the whole next state, so it is the frame too: every field not named is unchanged. -/

open Sys2Proof Sys2Proof.Machine

/-! ## Words the statements use -/

/-- The instruction completes at every state, returns `v`, and changes no register, no flag and nothing else. That what a
call returns is held in the field `returned` is the model's (log entry 1). -/
def Sys2Proof.Machine.Returns (i : Instr) (v : Value) : Prop :=
  ∀ s : State, exec i s = .next { s with returned := .value v }

/-- The instruction completes at every state with the error in place of a result, and changes nothing else (rule R245; the
field `returned` is the model's, log entries 1 and 3). -/
def Sys2Proof.Machine.Raises (i : Instr) (e : BoundaryError) : Prop :=
  ∀ s : State, exec i s = .next { s with returned := .error e }

/-- A lookup instruction returns the given entries on the operands `16*row`, `16*row + 1`, ..., `16*row + 15`. -/
def Sys2Proof.Machine.ReadsRow (lookup : Byte → Instr) (row : Nat) (entries : List Byte) : Prop :=
  entries.length = 16 ∧
  ∀ (col : Nat) (h : col < entries.length), Returns (lookup (BitVec.ofNat 8 (16 * row + col))) (.byte entries[col])

/-- The match and mask of the four command rows, over `{rst, start, dir}` (rule R81). -/
def Sys2Proof.commandRows : List (BitVec 3 × BitVec 3) :=
  [(0b100, 0b100), (0b010, 0b111), (0b011, 0b111), (0b000, 0b110)]

/-- The byte sequence of a block, as numbers. -/
def Sys2Proof.Machine.blockNumbers (x : Block) : List Nat := (blockBytes x).map BitVec.toNat

/-- The table of rule R214 for a busy engine: the control position after `(PHASE, RND)`. -/
def Sys2Proof.Machine.positionAfter (p : Phase) (d : Direction) (n : Nat) : Phase × Nat :=
  match p, d with
  | .idle, _ => (.idle, n)
  | .expand, _ => (.init, n)
  | .init, .encrypt => (.main, 1)
  | .init, .decrypt => (.main, 9)
  | .main, .encrypt => if n = 9 then (.final, 10) else (.main, n + 1)
  | .main, .decrypt => if n = 1 then (.final, 0) else (.main, n - 1)
  | .final, _ => (.idle, n)

/-- How many steps an operation takes from its acceptance on: the acceptance tick, the 12 micro-operations (rule R216), and
their stalls (rule R282; for a key in the cache, rule R33). -/
def Sys2Proof.Machine.operationSteps (s : State) (d : Direction) (key : Block) : Nat :=
  13 + (if s.ksCache = some key then Config.stallCyclesOnHit else Config.stallCycles .expand)
    + match d with
      | .encrypt => Config.stallCycles .encInit + 9 * Config.stallCycles .encRound + Config.stallCycles .encFinal
      | .decrypt => Config.stallCycles .decInit + 9 * Config.stallCycles .decRound + Config.stallCycles .decFinal

/-- Two host lines that present the same pins, or the same call; the operands on the ports may differ. -/
def Sys2Proof.Machine.SamePins (l l' : HostLine) : Prop :=
  match l, l' with
  | .drive pins _ _, .drive pins' _ _ => pins = pins'
  | .wait, .wait => True
  | .rtrip _ _, .rtrip _ _ => True
  | .call p, .call p' => p = p'
  | _, _ => False

/-- At this tick the operand `OUT`, where the host presents it, is legal: only when `done = 1` (rule R89). -/
def Sys2Proof.Machine.OutIsLegal (s : State) : Prop :=
  ∀ (pins : BitVec 3) (key block : Operand) (rest : List HostLine),
    present s.done s.lines = (.pins pins key block, rest) → key = .out ∨ block = .out → s.done = true

/-! ## Encodings -/

/-- Words written out from the tables of rules R81, R84 and R85, one or more for each format. -/
def Obligations.WordsOfTheTableDecode : Prop :=
  decodeCommand 0x22b7e151628aed2a6abf7158809cf4f3c3243f6a8885a308d313198a2e0370734#259
      = .enc 0x2b7e151628aed2a6abf7158809cf4f3c 0x3243f6a8885a308d313198a2e0370734 ∧
  decodeCommand 0x32b7e151628aed2a6abf7158809cf4f3c3925841d02dc09fbdc118597196a0b32#259
      = .dec 0x2b7e151628aed2a6abf7158809cf4f3c 0x3925841d02dc09fbdc118597196a0b32 ∧
  decodeCommand 0x62b7e151628aed2a6abf7158809cf4f3c3243f6a8885a308d313198a2e0370734#259 = .rst true false ∧
  decodeCommand 0x12b7e151628aed2a6abf7158809cf4f3c3243f6a8885a308d313198a2e0370734#259 = .nop true ∧
  decodeMicroOp 0b1001#4 = .ok (.expand .decrypt) ∧ decodeMicroOp 0b0010#4 = .ok .encInit ∧
  decodeMicroOp 0b1010#4 = .ok .decInit ∧ decodeMicroOp 0b0011#4 = .ok .encRound ∧
  decodeMicroOp 0b1011#4 = .ok .decRound ∧ decodeMicroOp 0b0100#4 = .ok .encFinal ∧
  decodeMicroOp 0b1100#4 = .ok .decFinal ∧ decodeMicroOp 0b0000#4 = .error .idleSelectsNone ∧
  decodeMicroOp 0b0110#4 = .error .reservedPhase ∧
  decodePrimitive ⟨.substitute, some true, [.byte 0x63]⟩ = .ok (.invSubst 0x63) ∧
  decodePrimitive ⟨.multiply, none, [.byte 0x57, .byte 0x13]⟩ = .ok (.gfmul 0x57 0x13) ∧
  decodePrimitive ⟨.roundConstant, none, [.index 10]⟩ = .error .indexOutOfRange

/-- Rule R81: every command word is exactly one of the four rows and decodes to it; the operand fields are bits 255..128
and 127..0 (the model's placing, log entry 13). -/
def Obligations.CommandWordsArePartitioned : Prop :=
  ∀ w : CommandWord,
    (commandRows.filter fun r => w.extractLsb' 256 3 &&& r.2 = r.1).length = 1 ∧
    (w.extractLsb' 256 3 &&& 0b100#3 = 0b100#3 → decodeCommand w = .rst (w.getLsbD 257) (w.getLsbD 256)) ∧
    (w.extractLsb' 256 3 &&& 0b111#3 = 0b010#3 → decodeCommand w = .enc (w.extractLsb' 128 128) (w.extractLsb' 0 128)) ∧
    (w.extractLsb' 256 3 &&& 0b111#3 = 0b011#3 → decodeCommand w = .dec (w.extractLsb' 128 128) (w.extractLsb' 0 128)) ∧
    (w.extractLsb' 256 3 &&& 0b110#3 = 0b000#3 → decodeCommand w = .nop (w.getLsbD 256))

/-- Decode and encode agree, for every instruction with every operand. -/
def Obligations.DecodeOfEncodeIsTheInstruction : Prop :=
  ∀ i : Instr, decode (encode i) = .ok i

/-- The other direction: an encoded word that decodes to an instruction is that instruction's encoding, but for the operand
fields that `RST` and `NOP` ignore (rule R83); the numbered bits always agree. -/
def Obligations.EncodeOfDecodeIsTheWord : Prop :=
  ∀ (e : Encoded) (i : Instr), decode e = .ok i →
    (encode i).tableBits = e.tableBits ∧ (encode i).tableWidth = e.tableWidth ∧
    ((∀ st d, i ≠ .rst st d) → (∀ d, i ≠ .nop d) → encode i = e)

/-! ## Primitives: GF arithmetic -/

/-- Rule R110: `XOR` in its four forms, bit by bit, and its corner cases. -/
def Obligations.XorIsBitwise : Prop :=
  (∀ a b : Byte, ∃ v : Byte, Returns (.xor (.bytes a b)) (.byte v) ∧
    ∀ i, v.getLsbD i = true ↔ a.getLsbD i ≠ b.getLsbD i) ∧
  (∀ a b : Word, ∃ v : Word, Returns (.xor (.words a b)) (.word v) ∧
    ∀ n, wordByte v n = wordByte a n ^^^ wordByte b n) ∧
  (∀ a b : Block, ∃ v : Block, Returns (.xor (.blocks a b)) (.block v) ∧
    ∀ n, blockByte v n = blockByte a n ^^^ blockByte b n) ∧
  (∀ a b : CipherState, ∃ v : CipherState, Returns (.xor (.states a b)) (.state v) ∧
    ∀ r c, cell v r c = cell a r c ^^^ cell b r c) ∧
  (∀ a b c : Byte, Returns (.xor (.bytes a 0)) (.byte a) ∧ Returns (.xor (.bytes a a)) (.byte 0) ∧
    (∀ s, exec (.xor (.bytes a b)) s = exec (.xor (.bytes b a)) s) ∧
    (∀ s, exec (.xor (.bytes (a ^^^ b) c)) s = exec (.xor (.bytes a (b ^^^ c))) s)) ∧
  Returns (.xor (.bytes 0x57 0x83)) (.byte 0xd4)

/-- Rule R111: `XTIME` shifts within a byte and reduces by `0x1B` exactly when bit 7 was set; its corner cases. -/
def Obligations.XtimeShiftsAndReduces : Prop :=
  (∀ v : Byte, ∃ u : Byte, Returns (.xtime v) (.byte u) ∧ Returns (.gfmul 0x02 v) (.byte u) ∧
    (v.toNat < 128 → u.toNat = 2 * v.toNat) ∧
    (128 ≤ v.toNat → u.toNat = (2 * v.toNat - 256) ^^^ 0x1B)) ∧
  Returns (.xtime 0x00) (.byte 0x00) ∧ Returns (.xtime 0x80) (.byte 0x1b) ∧ Returns (.xtime 0x7f) (.byte 0xfe) ∧
  Returns (.xtime 0xff) (.byte 0xe5) ∧ Returns (.xtime 0x57) (.byte 0xae) ∧ Returns (.xtime 0xae) (.byte 0x47)

/-- Rule R112: `GFMUL(a, b)` is the XOR, over the bits `i` of `a` that are set, of `b` doubled `i` times; its corner cases. -/
def Obligations.GfmulAccumulatesDoublings : Prop :=
  (∀ a b : Byte, Returns (.gfmul a b)
    (.byte ((List.range 8).foldl (fun acc i => if a.getLsbD i then acc ^^^ xtime^[i] b else acc) 0))) ∧
  (∀ a : Byte, Returns (.gfmul a 0x00) (.byte 0x00) ∧ Returns (.gfmul 0x00 a) (.byte 0x00) ∧
    Returns (.gfmul a 0x01) (.byte a) ∧ Returns (.gfmul 0x01 a) (.byte a) ∧
    Returns (.gfmul 0x02 a) (.byte (xtime a)) ∧ Returns (.gfmul 0x03 a) (.byte (xtime a ^^^ a))) ∧
  (∀ a b : Byte, a ≠ 0 → b ≠ 0 → ∃ v : Byte, v ≠ 0 ∧ Returns (.gfmul a b) (.byte v)) ∧
  Returns (.gfmul 0xff 0xff) (.byte 0x13) ∧ Returns (.gfmul 0x80 0x02) (.byte 0x1b) ∧
  Returns (.gfmul 0x57 0x13) (.byte 0xfe)

/-- Rule R113: the laws of the field multiplication. -/
def Obligations.GfmulLaws : Prop :=
  ∀ a b c : Byte, gfmul a b = gfmul b a ∧ gfmul a (b ^^^ c) = gfmul a b ^^^ gfmul a c ∧
    gfmul a 0x01 = a ∧ gfmul a 0x00 = 0x00

/-! ## Primitives: substitution -/

/-- Rules R130 and R131: the operand's high nibble is the table row and its low nibble the column; the 32 rows are those
that rules R132 and R133 print (log entry 18 says where the spec has them from); the corner cases. -/
def Obligations.SubstLooksUpRowAndColumn : Prop :=
  ReadsRow .subst 0 [0x63, 0x7c, 0x77, 0x7b, 0xf2, 0x6b, 0x6f, 0xc5, 0x30, 0x01, 0x67, 0x2b, 0xfe, 0xd7, 0xab, 0x76] ∧
  ReadsRow .subst 1 [0xca, 0x82, 0xc9, 0x7d, 0xfa, 0x59, 0x47, 0xf0, 0xad, 0xd4, 0xa2, 0xaf, 0x9c, 0xa4, 0x72, 0xc0] ∧
  ReadsRow .subst 2 [0xb7, 0xfd, 0x93, 0x26, 0x36, 0x3f, 0xf7, 0xcc, 0x34, 0xa5, 0xe5, 0xf1, 0x71, 0xd8, 0x31, 0x15] ∧
  ReadsRow .subst 3 [0x04, 0xc7, 0x23, 0xc3, 0x18, 0x96, 0x05, 0x9a, 0x07, 0x12, 0x80, 0xe2, 0xeb, 0x27, 0xb2, 0x75] ∧
  ReadsRow .subst 4 [0x09, 0x83, 0x2c, 0x1a, 0x1b, 0x6e, 0x5a, 0xa0, 0x52, 0x3b, 0xd6, 0xb3, 0x29, 0xe3, 0x2f, 0x84] ∧
  ReadsRow .subst 5 [0x53, 0xd1, 0x00, 0xed, 0x20, 0xfc, 0xb1, 0x5b, 0x6a, 0xcb, 0xbe, 0x39, 0x4a, 0x4c, 0x58, 0xcf] ∧
  ReadsRow .subst 6 [0xd0, 0xef, 0xaa, 0xfb, 0x43, 0x4d, 0x33, 0x85, 0x45, 0xf9, 0x02, 0x7f, 0x50, 0x3c, 0x9f, 0xa8] ∧
  ReadsRow .subst 7 [0x51, 0xa3, 0x40, 0x8f, 0x92, 0x9d, 0x38, 0xf5, 0xbc, 0xb6, 0xda, 0x21, 0x10, 0xff, 0xf3, 0xd2] ∧
  ReadsRow .subst 8 [0xcd, 0x0c, 0x13, 0xec, 0x5f, 0x97, 0x44, 0x17, 0xc4, 0xa7, 0x7e, 0x3d, 0x64, 0x5d, 0x19, 0x73] ∧
  ReadsRow .subst 9 [0x60, 0x81, 0x4f, 0xdc, 0x22, 0x2a, 0x90, 0x88, 0x46, 0xee, 0xb8, 0x14, 0xde, 0x5e, 0x0b, 0xdb] ∧
  ReadsRow .subst 10 [0xe0, 0x32, 0x3a, 0x0a, 0x49, 0x06, 0x24, 0x5c, 0xc2, 0xd3, 0xac, 0x62, 0x91, 0x95, 0xe4, 0x79] ∧
  ReadsRow .subst 11 [0xe7, 0xc8, 0x37, 0x6d, 0x8d, 0xd5, 0x4e, 0xa9, 0x6c, 0x56, 0xf4, 0xea, 0x65, 0x7a, 0xae, 0x08] ∧
  ReadsRow .subst 12 [0xba, 0x78, 0x25, 0x2e, 0x1c, 0xa6, 0xb4, 0xc6, 0xe8, 0xdd, 0x74, 0x1f, 0x4b, 0xbd, 0x8b, 0x8a] ∧
  ReadsRow .subst 13 [0x70, 0x3e, 0xb5, 0x66, 0x48, 0x03, 0xf6, 0x0e, 0x61, 0x35, 0x57, 0xb9, 0x86, 0xc1, 0x1d, 0x9e] ∧
  ReadsRow .subst 14 [0xe1, 0xf8, 0x98, 0x11, 0x69, 0xd9, 0x8e, 0x94, 0x9b, 0x1e, 0x87, 0xe9, 0xce, 0x55, 0x28, 0xdf] ∧
  ReadsRow .subst 15 [0x8c, 0xa1, 0x89, 0x0d, 0xbf, 0xe6, 0x42, 0x68, 0x41, 0x99, 0x2d, 0x0f, 0xb0, 0x54, 0xbb, 0x16] ∧
  ReadsRow .invSubst 0 [0x52, 0x09, 0x6a, 0xd5, 0x30, 0x36, 0xa5, 0x38, 0xbf, 0x40, 0xa3, 0x9e, 0x81, 0xf3, 0xd7, 0xfb] ∧
  ReadsRow .invSubst 1 [0x7c, 0xe3, 0x39, 0x82, 0x9b, 0x2f, 0xff, 0x87, 0x34, 0x8e, 0x43, 0x44, 0xc4, 0xde, 0xe9, 0xcb] ∧
  ReadsRow .invSubst 2 [0x54, 0x7b, 0x94, 0x32, 0xa6, 0xc2, 0x23, 0x3d, 0xee, 0x4c, 0x95, 0x0b, 0x42, 0xfa, 0xc3, 0x4e] ∧
  ReadsRow .invSubst 3 [0x08, 0x2e, 0xa1, 0x66, 0x28, 0xd9, 0x24, 0xb2, 0x76, 0x5b, 0xa2, 0x49, 0x6d, 0x8b, 0xd1, 0x25] ∧
  ReadsRow .invSubst 4 [0x72, 0xf8, 0xf6, 0x64, 0x86, 0x68, 0x98, 0x16, 0xd4, 0xa4, 0x5c, 0xcc, 0x5d, 0x65, 0xb6, 0x92] ∧
  ReadsRow .invSubst 5 [0x6c, 0x70, 0x48, 0x50, 0xfd, 0xed, 0xb9, 0xda, 0x5e, 0x15, 0x46, 0x57, 0xa7, 0x8d, 0x9d, 0x84] ∧
  ReadsRow .invSubst 6 [0x90, 0xd8, 0xab, 0x00, 0x8c, 0xbc, 0xd3, 0x0a, 0xf7, 0xe4, 0x58, 0x05, 0xb8, 0xb3, 0x45, 0x06] ∧
  ReadsRow .invSubst 7 [0xd0, 0x2c, 0x1e, 0x8f, 0xca, 0x3f, 0x0f, 0x02, 0xc1, 0xaf, 0xbd, 0x03, 0x01, 0x13, 0x8a, 0x6b] ∧
  ReadsRow .invSubst 8 [0x3a, 0x91, 0x11, 0x41, 0x4f, 0x67, 0xdc, 0xea, 0x97, 0xf2, 0xcf, 0xce, 0xf0, 0xb4, 0xe6, 0x73] ∧
  ReadsRow .invSubst 9 [0x96, 0xac, 0x74, 0x22, 0xe7, 0xad, 0x35, 0x85, 0xe2, 0xf9, 0x37, 0xe8, 0x1c, 0x75, 0xdf, 0x6e] ∧
  ReadsRow .invSubst 10 [0x47, 0xf1, 0x1a, 0x71, 0x1d, 0x29, 0xc5, 0x89, 0x6f, 0xb7, 0x62, 0x0e, 0xaa, 0x18, 0xbe, 0x1b] ∧
  ReadsRow .invSubst 11 [0xfc, 0x56, 0x3e, 0x4b, 0xc6, 0xd2, 0x79, 0x20, 0x9a, 0xdb, 0xc0, 0xfe, 0x78, 0xcd, 0x5a, 0xf4] ∧
  ReadsRow .invSubst 12 [0x1f, 0xdd, 0xa8, 0x33, 0x88, 0x07, 0xc7, 0x31, 0xb1, 0x12, 0x10, 0x59, 0x27, 0x80, 0xec, 0x5f] ∧
  ReadsRow .invSubst 13 [0x60, 0x51, 0x7f, 0xa9, 0x19, 0xb5, 0x4a, 0x0d, 0x2d, 0xe5, 0x7a, 0x9f, 0x93, 0xc9, 0x9c, 0xef] ∧
  ReadsRow .invSubst 14 [0xa0, 0xe0, 0x3b, 0x4d, 0xae, 0x2a, 0xf5, 0xb0, 0xc8, 0xeb, 0xbb, 0x3c, 0x83, 0x53, 0x99, 0x61] ∧
  ReadsRow .invSubst 15 [0x17, 0x2b, 0x04, 0x7e, 0xba, 0x77, 0xd6, 0x26, 0xe1, 0x69, 0x14, 0x63, 0x55, 0x21, 0x0c, 0x7d] ∧
  (∀ x : Byte, ∃ y z : Byte, Returns (.subst x) (.byte y) ∧ y ≠ x ∧ (y = 0 ↔ x = 0x52) ∧
    Returns (.invSubst x) (.byte z) ∧ z ≠ x ∧
    Returns (.invSubst y) (.byte x) ∧ Returns (.subst z) (.byte x)) ∧
  Returns (.subst 0x00) (.byte 0x63) ∧ Returns (.subst 0xff) (.byte 0x16) ∧ Returns (.subst 0x53) (.byte 0xed) ∧
  Returns (.invSubst 0x00) (.byte 0x52) ∧ Returns (.invSubst 0x63) (.byte 0x00) ∧
  Returns (.invSubst 0xff) (.byte 0x7d) ∧ Returns (.invSubst 0xed) (.byte 0x53)

/-- Rule R134: the two tables are inverse permutations of the byte values. -/
def Obligations.SubstitutionsAreInverse : Prop :=
  ∀ x : Byte, invSubst (subst x) = x ∧ subst (invSubst x) = x ∧ (∃! y, subst y = x) ∧ ∃! y, invSubst y = x

/-- Rules R136 to R138: each row of a mix matrix is the row above rotated right by one, and the matrices are inverse over
GF(2^8). -/
def Obligations.MixMatricesAreInverse : Prop :=
  (∀ i j : Fin 4, readMix i j = readMix 0 (j - i) ∧ readInvMix i j = readInvMix 0 (j - i)) ∧
  (∀ i k : Fin 4,
    gfmul (readInvMix i 0) (readMix 0 k) ^^^ gfmul (readInvMix i 1) (readMix 1 k) ^^^
      gfmul (readInvMix i 2) (readMix 2 k) ^^^ gfmul (readInvMix i 3) (readMix 3 k) = (if i = k then 0x01 else 0x00) ∧
    gfmul (readMix i 0) (readInvMix 0 k) ^^^ gfmul (readMix i 1) (readInvMix 1 k) ^^^
      gfmul (readMix i 2) (readInvMix 2 k) ^^^ gfmul (readMix i 3) (readInvMix 3 k) = (if i = k then 0x01 else 0x00))

/-! ## Primitives: key expansion -/

/-- Rule R150: `ROTWORD` is the rotation by one byte, `((w << 8)[31:0]) | (w >> 24)`, and four of them give the operand
back. -/
def Obligations.RotWordRotatesByOneByte : Prop :=
  (∀ w : Word, Returns (.rotWord w) (.word ((w <<< 8) ||| (w >>> 24))) ∧
    rotWord (rotWord (rotWord (rotWord w))) = w) ∧
  (∀ b0 b1 b2 b3 : Byte, Returns (.rotWord (wordOfBytes b0 b1 b2 b3)) (.word (wordOfBytes b1 b2 b3 b0))) ∧
  Returns (.rotWord 0x09cf4f3c) (.word 0xcf4f3c09)

/-- Rule R151: `SUBWORD` substitutes each byte in its position by the forward table. -/
def Obligations.SubWordSubstitutesEachByte : Prop :=
  (∀ w : Word, ∃ v : Word, Returns (.subWord w) (.word v) ∧ ∀ b, wordByte v b = subst (wordByte w b)) ∧
  Returns (.subWord 0x00000000) (.word 0x63636363) ∧ Returns (.subWord 0xffffffff) (.word 0x16161616) ∧
  Returns (.subWord 0xcf4f3c09) (.word 0x8a84eb01)

/-- Rules R135 and R152: `RCONW(r)` has the round-constant byte in its top byte and zero elsewhere; the bytes start at
`0x01` and each is the double of the one before. -/
def Obligations.RconHoldsTheDoublings : Prop :=
  (∀ r : Fin 10, ∃ v : Word, Returns (.rconW r) (.word v) ∧ wordByte v 0 = xtime^[r.val] 0x01 ∧
    wordByte v 1 = 0 ∧ wordByte v 2 = 0 ∧ wordByte v 3 = 0) ∧
  Returns (.rconW 0) (.word 0x01000000) ∧ Returns (.rconW 1) (.word 0x02000000) ∧
  Returns (.rconW 7) (.word 0x80000000) ∧ Returns (.rconW 8) (.word 0x1b000000) ∧
  Returns (.rconW 9) (.word 0x36000000)

/-- Rule R153: `KTRANSFORM` rotates, then substitutes, then adds the round constant, which changes the top byte only. -/
def Obligations.KTransformRotatesSubstitutesAdds : Prop :=
  (∀ (w : Word) (r : Fin 10), ∃ v : Word, Returns (.kTransform w r) (.word v) ∧
    wordByte v 0 = subst (wordByte w 1) ^^^ xtime^[r.val] 0x01 ∧ wordByte v 1 = subst (wordByte w 2) ∧
    wordByte v 2 = subst (wordByte w 3) ∧ wordByte v 3 = subst (wordByte w 0)) ∧
  Returns (.kTransform 0x00000000 0) (.word 0x62636363) ∧ Returns (.kTransform 0x00000000 8) (.word 0x78636363) ∧
  Returns (.kTransform 0xffffffff 9) (.word 0x20161616) ∧ Returns (.kTransform 0x09cf4f3c 0) (.word 0x8b84eb01)

/-- Rule R154: `KEXPAND` of 16 bytes gives 44 words: the first four are the key, big-endian, and each further word is the
recurrence. That the primitive itself raises `InvalidLength` for a byte sequence of another length is read from R154 against
R240 and R241, which name the boundary of the two block functions only (log entry 21). -/
def Obligations.KeyScheduleFollowsTheRecurrence : Prop :=
  (∀ (key : List Byte) (h : key.length = 16), ∃ wd : Schedule,
    Returns (.kExpand key) (.schedule wd) ∧
    (∀ (a : Nat) (ha : a < 4), wd[a] = wordOfBytes key[4 * a] key[4 * a + 1] key[4 * a + 2] key[4 * a + 3]) ∧
    (∀ (i : Nat) (hi : i < 44) (_ : 4 ≤ i), wd[i] =
      (if i % 4 = 0 then kTransform wd[i - 1] ⟨i / 4 - 1, by omega⟩ else wd[i - 1]) ^^^ wd[i - 4])) ∧
  (∀ key : List Byte, key.length ≠ 16 → Raises (.kExpand key) .invalidLength)

/-- Rule R155: round key `r` is `{Wd[4r], Wd[4r+1], Wd[4r+2], Wd[4r+3]}`, and round key 0 of a schedule is the key (rule
R156). -/
def Obligations.RoundKeyIsFourWords : Prop :=
  (∀ (wd : Schedule) (r : Fin 11),
    Returns (.rKey wd r)
      (.block (wd[4 * r.val] ++ wd[4 * r.val + 1] ++ wd[4 * r.val + 2] ++ wd[4 * r.val + 3])) ∧
    ∀ a b : Fin 4, blockByte (rKey wd r) (streamIndex b a) = wordByte wd[4 * r.val + a.val] b) ∧
  (∀ key : Block, Returns (.rKey (kExpand key) 0) (.block key))

/-! ## Primitives: round transforms -/

/-- Rules R171 and R172: every cell is substituted on its own. -/
def Obligations.SubBytesActsOnEachCell : Prop :=
  ∀ x : CipherState, ∃ y z : CipherState,
    Returns (.subBytes x) (.state y) ∧ Returns (.invSubBytes x) (.state z) ∧
    ∀ r c, cell y r c = subst (cell x r c) ∧ cell z r c = invSubst (cell x r c)

/-- Rules R173 and R174: cell `[r][c]` moves to `[r][(c-r+4) mod 4]`, and by the inverse to `[r][(c+r) mod 4]`; on the 16
stream bytes these are the permutations `P` and `Q`. -/
def Obligations.ShiftRowsMovesTheCells : Prop :=
  ∀ x : CipherState, ∃ y z : CipherState,
    Returns (.shiftRows x) (.state y) ∧ Returns (.invShiftRows x) (.state z) ∧
    (∀ r c : Fin 4, cell y r ⟨(c.val + 4 - r.val) % 4, by omega⟩ = cell x r c ∧
      cell z r ⟨(c.val + r.val) % 4, by omega⟩ = cell x r c) ∧
    (∀ n : Fin 16,
      blockByte (unloadState y) n
        = blockByte (unloadState x) ([0, 5, 10, 15, 4, 9, 14, 3, 8, 13, 2, 7, 12, 1, 6, 11][n.val]'n.isLt) ∧
      blockByte (unloadState z) n
        = blockByte (unloadState x) ([0, 13, 10, 7, 4, 1, 14, 11, 8, 5, 2, 15, 12, 9, 6, 3][n.val]'n.isLt))

/-- Rule R175: `MIXCOLUMNS`, written out for one column; its corner cases and its examples. -/
def Obligations.MixColumnsMultipliesEachColumn : Prop :=
  (∀ x : CipherState, ∃ y : CipherState, Returns (.mixColumns x) (.state y) ∧
    ∀ k : Fin 4,
      cell y 0 k = xtime (cell x 0 k) ^^^ (xtime (cell x 1 k) ^^^ cell x 1 k) ^^^ cell x 2 k ^^^ cell x 3 k ∧
      cell y 1 k = cell x 0 k ^^^ xtime (cell x 1 k) ^^^ (xtime (cell x 2 k) ^^^ cell x 2 k) ^^^ cell x 3 k ∧
      cell y 2 k = cell x 0 k ^^^ cell x 1 k ^^^ xtime (cell x 2 k) ^^^ (xtime (cell x 3 k) ^^^ cell x 3 k) ∧
      cell y 3 k = (xtime (cell x 0 k) ^^^ cell x 0 k) ^^^ cell x 1 k ^^^ cell x 2 k ^^^ xtime (cell x 3 k) ∧
      (cell x 1 k = cell x 0 k → cell x 2 k = cell x 0 k → cell x 3 k = cell x 0 k → ∀ r, cell y r k = cell x 0 k)) ∧
  Returns (.mixColumns (loadBlock 0xd4bf5d30e0b452aeb84111f11e2798e5))
    (.state (loadBlock 0x046681e5e0cb199a48f8d37a2806264c))

/-- Rule R176: `INVMIXCOLUMNS`, written out for one column; its corner cases and its examples. -/
def Obligations.InvMixColumnsMultipliesEachColumn : Prop :=
  (∀ x : CipherState, ∃ y : CipherState, Returns (.invMixColumns x) (.state y) ∧
    ∀ k : Fin 4,
      cell y 0 k = gfmul 0x0e (cell x 0 k) ^^^ gfmul 0x0b (cell x 1 k) ^^^ gfmul 0x0d (cell x 2 k) ^^^ gfmul 0x09 (cell x 3 k) ∧
      cell y 1 k = gfmul 0x09 (cell x 0 k) ^^^ gfmul 0x0e (cell x 1 k) ^^^ gfmul 0x0b (cell x 2 k) ^^^ gfmul 0x0d (cell x 3 k) ∧
      cell y 2 k = gfmul 0x0d (cell x 0 k) ^^^ gfmul 0x09 (cell x 1 k) ^^^ gfmul 0x0e (cell x 2 k) ^^^ gfmul 0x0b (cell x 3 k) ∧
      cell y 3 k = gfmul 0x0b (cell x 0 k) ^^^ gfmul 0x0d (cell x 1 k) ^^^ gfmul 0x09 (cell x 2 k) ^^^ gfmul 0x0e (cell x 3 k) ∧
      (cell x 1 k = cell x 0 k → cell x 2 k = cell x 0 k → cell x 3 k = cell x 0 k → ∀ r, cell y r k = cell x 0 k)) ∧
  Returns (.invMixColumns (loadBlock 0x046681e5e0cb199a48f8d37a2806264c))
    (.state (loadBlock 0xd4bf5d30e0b452aeb84111f11e2798e5))

/-- Rule R177: `ADDROUNDKEY` puts round-key byte `4a+b` on cell `[b][a]`; on the stream bytes it is a plain XOR; it is its
own inverse. -/
def Obligations.AddRoundKeyXorsInStreamOrder : Prop :=
  (∀ (x : CipherState) (rk : Block), ∃ y : CipherState, Returns (.addRoundKey x rk) (.state y) ∧
    (∀ a b : Fin 4, cell y b a = cell x b a ^^^ blockByte rk ⟨4 * a.val + b.val, by omega⟩) ∧
    unloadState y = unloadState x ^^^ rk ∧ Returns (.addRoundKey y rk) (.state x) ∧
    Returns (.addRoundKey x 0) (.state x)) ∧
  Returns (.addRoundKey (loadBlock 0x046681e5e0cb199a48f8d37a2806264c) 0xa0fafe1788542cb123a339392a6c7605)
    (.state (loadBlock 0xa49c7ff2689f352b6b5bea43026a5049))

/-- Rule R178: each inverse transform undoes its transform, in both orders. -/
def Obligations.TransformsHaveInverses : Prop :=
  ∀ (x : CipherState) (rk : Block),
    invSubBytes (subBytes x) = x ∧ subBytes (invSubBytes x) = x ∧
    invShiftRows (shiftRows x) = x ∧ shiftRows (invShiftRows x) = x ∧
    invMixColumns (mixColumns x) = x ∧ mixColumns (invMixColumns x) = x ∧
    addRoundKey (addRoundKey x rk) rk = x

/-- Rule R179: the lanes of the round transforms: column `k` of `MIXCOLUMNS` and `INVMIXCOLUMNS` depends on column `k` only,
every cell of the substitutions and of `ADDROUNDKEY` on the cell at its position only, and a substitution commutes with a
shift of rows. -/
def Obligations.TransformsActOnTheirLanes : Prop :=
  (∀ (x y : CipherState) (k : Fin 4), (∀ r, cell x r k = cell y r k) →
    ∀ r, cell (mixColumns x) r k = cell (mixColumns y) r k ∧ cell (invMixColumns x) r k = cell (invMixColumns y) r k) ∧
  (∀ (x y : CipherState) (rk : Block) (r c : Fin 4), cell x r c = cell y r c →
    cell (subBytes x) r c = cell (subBytes y) r c ∧ cell (invSubBytes x) r c = cell (invSubBytes y) r c ∧
    cell (addRoundKey x rk) r c = cell (addRoundKey y rk) r c) ∧
  (∀ x : CipherState, subBytes (shiftRows x) = shiftRows (subBytes x) ∧
    invSubBytes (invShiftRows x) = invShiftRows (invSubBytes x))

/-! ## Primitives: blocks -/

/-- Rules R200 and R201: `LOAD` puts byte `4*col + row` at cell `[row][col]`, `UNLOAD` reads byte `n` from cell
`[n mod 4][n div 4]`, and they undo each other. That the primitive `LOAD` itself raises `InvalidLength` for a byte sequence of
another length than 16 is read from R200 against R240 and R241, which name the boundary of the two block functions only (log
entry 21). -/
def Obligations.LoadAndUnloadAreColumnMajor : Prop :=
  (∀ (b : List Byte) (h : b.length = 16), ∃ x : CipherState, Returns (.load b) (.state x) ∧
    (∀ row col : Fin 4, cell x row col = b[4 * col.val + row.val]) ∧
    ∃ u : Block, Returns (.unload x) (.block u) ∧ blockBytes u = b) ∧
  (∀ x : CipherState, ∃ u : Block, Returns (.unload x) (.block u) ∧
    (∀ n : Fin 16, blockByte u n = cell x ⟨n.val % 4, by omega⟩ ⟨n.val / 4, by omega⟩) ∧
    Returns (.load (blockBytes u)) (.state x)) ∧
  (∀ b : List Byte, b.length ≠ 16 → Raises (.load b) .invalidLength)

/-- Rule R202: `ENCRYPTBLOCK` on 16 and 16 bytes goes through the States of the document's five steps; with an operand of
another length it raises `InvalidLength`. -/
def Obligations.EncryptBlockFollowsTheRounds : Prop :=
  (∀ p key : Block, ∃ (c : Block) (wd : Schedule) (x : Fin 11 → CipherState),
    Returns (.encryptBlock (blockNumbers p) (blockNumbers key)) (.block c) ∧
    Returns (.kExpand (blockBytes key)) (.schedule wd) ∧
    x 0 = addRoundKey (loadBlock p) (rKey wd 0) ∧
    (∀ i : Fin 11, 1 ≤ i → i ≤ 9 → x i = addRoundKey (mixColumns (shiftRows (subBytes (x (i - 1))))) (rKey wd i)) ∧
    x 10 = addRoundKey (shiftRows (subBytes (x 9))) (rKey wd 10) ∧
    c = unloadState (x 10)) ∧
  (∀ p key : List Nat, p.length ≠ 16 ∨ key.length ≠ 16 → Raises (.encryptBlock p key) .invalidLength)

/-- Rule R203: `DECRYPTBLOCK` on 16 and 16 bytes goes through the States of the document's five steps; `x i` is the State
after the step that uses round key `i`; with an operand of another length it raises `InvalidLength`. -/
def Obligations.DecryptBlockFollowsTheRounds : Prop :=
  (∀ c key : Block, ∃ (p : Block) (wd : Schedule) (x : Fin 11 → CipherState),
    Returns (.decryptBlock (blockNumbers c) (blockNumbers key)) (.block p) ∧
    Returns (.kExpand (blockBytes key)) (.schedule wd) ∧
    x 10 = addRoundKey (loadBlock c) (rKey wd 10) ∧
    (∀ i : Fin 11, 1 ≤ i → i ≤ 9 →
      x i = invMixColumns (addRoundKey (invSubBytes (invShiftRows (x (i + 1)))) (rKey wd i))) ∧
    x 0 = addRoundKey (invSubBytes (invShiftRows (x 1))) (rKey wd 0) ∧
    p = unloadState (x 0)) ∧
  (∀ c key : List Nat, c.length ≠ 16 ∨ key.length ≠ 16 → Raises (.decryptBlock c key) .invalidLength)

/-- The known-answer vector of rule R218, in both directions, and the all-zero block under the all-zero key of rules R202 and
R203. -/
def Obligations.KnownAnswerVectorHolds : Prop :=
  Returns (.encryptBlock (blockNumbers 0x3243f6a8885a308d313198a2e0370734) (blockNumbers 0x2b7e151628aed2a6abf7158809cf4f3c))
    (.block 0x3925841d02dc09fbdc118597196a0b32) ∧
  Returns (.decryptBlock (blockNumbers 0x3925841d02dc09fbdc118597196a0b32) (blockNumbers 0x2b7e151628aed2a6abf7158809cf4f3c))
    (.block 0x3243f6a8885a308d313198a2e0370734) ∧
  Returns (.encryptBlock (blockNumbers 0) (blockNumbers 0)) (.block 0x66e94bd4ef8a2c3b884cfa59ca342b2e) ∧
  Returns (.decryptBlock (blockNumbers 0) (blockNumbers 0)) (.block 0x140f0f1011b5223d79587717ffd9ec3a)

/-- Rule R218, round trip: decryption undoes encryption under the same key, and encryption decryption. -/
def Obligations.DecryptionUndoesEncryption : Prop :=
  ∀ b key : Block, ∃ c d : Block,
    Returns (.encryptBlock (blockNumbers b) (blockNumbers key)) (.block c) ∧
    Returns (.decryptBlock (blockNumbers c) (blockNumbers key)) (.block b) ∧
    Returns (.decryptBlock (blockNumbers b) (blockNumbers key)) (.block d) ∧
    Returns (.encryptBlock (blockNumbers d) (blockNumbers key)) (.block b)

/-- Rules R241, R242, R244 and R245: a wrong length of either operand raises `InvalidLength`, whatever the elements are; with
both lengths right, an element outside 0..255 raises `DomainViolation`; nothing else changes; without either, no error is
raised and 16 bytes are returned (rule R247). -/
def Obligations.OperandErrorsComeInTheirOrder : Prop :=
  ∀ b key : List Nat,
    (b.length ≠ 16 ∨ key.length ≠ 16 →
      Raises (.encryptBlock b key) .invalidLength ∧ Raises (.decryptBlock b key) .invalidLength) ∧
    (b.length = 16 → key.length = 16 → (∃ n, (n ∈ b ∨ n ∈ key) ∧ 255 < n) →
      Raises (.encryptBlock b key) .domainViolation ∧ Raises (.decryptBlock b key) .domainViolation) ∧
    (b.length = 16 → key.length = 16 → (∀ n, n ∈ b ∨ n ∈ key → n ≤ 255) → ∃ c d : Block,
      Returns (.encryptBlock b key) (.block c) ∧ Returns (.decryptBlock b key) (.block d))

/-! ## Commands -/

/-- Rule R204: an idle engine accepts `ENC`, with all its writes in one step; on a busy one it has the effect of `NOP`. -/
def Obligations.EncIsAcceptedWhenIdle : Prop :=
  ∀ (s : State) (key block : Block),
    (s.phase = .idle → ∃ x : CipherState,
      exec (.enc key block) s
        = .next { s with key := key, dir := .encrypt, st := x, done := false, rnd := 0, phase := .expand } ∧
      (∀ row col : Fin 4, cell x row col = blockByte block ⟨4 * col.val + row.val, by omega⟩) ∧
      (∀ t, exec (.enc key block) s = .next t → busy t = true)) ∧
    (s.phase ≠ .idle → ∀ dir, exec (.enc key block) s = exec (.nop dir) s)

/-- Rule R205: an idle engine accepts `DEC`, with all its writes in one step; on a busy one it has the effect of `NOP`. -/
def Obligations.DecIsAcceptedWhenIdle : Prop :=
  ∀ (s : State) (key block : Block),
    (s.phase = .idle → ∃ x : CipherState,
      exec (.dec key block) s
        = .next { s with key := key, dir := .decrypt, st := x, done := false, rnd := 10, phase := .expand } ∧
      (∀ row col : Fin 4, cell x row col = blockByte block ⟨4 * col.val + row.val, by omega⟩) ∧
      (∀ t, exec (.dec key block) s = .next t → busy t = true)) ∧
    (s.phase ≠ .idle → ∀ dir, exec (.dec key block) s = exec (.nop dir) s)

/-- Rules R206 and R275: `NOP` changes nothing, and neither does an `ENC` or `DEC` presented while the engine is busy; and at
a tick of a busy engine with `rst = 0` the command and the operands on the ports make no difference to anything, so that an
ignored command is a `NOP`. -/
def Obligations.NopAndIgnoredStartsChangeNothing : Prop :=
  ∀ (s : State) (key block : Block) (dir : Bool),
    exec (.nop dir) s = .next s ∧
    (s.phase ≠ .idle → exec (.enc key block) s = .next s ∧ exec (.dec key block) s = .next s ∧
      ∀ (p p' : BitVec 3) (k b k' b' : Operand) (rest : List HostLine), p.getLsbD 2 = false → p'.getLsbD 2 = false →
        step { s with lines := .drive p k b :: rest } = step { s with lines := .drive p' k' b' :: rest })

/-- Rule R270: `RST`, in any state and whatever `start` and `dir` are, sets the control registers and empties the cache;
of the host's side and of the model's counters nothing changes. The four data registers are free values (log entry 5):
nothing is said of them. -/
def Obligations.RstSetsTheControlRegisters : Prop :=
  ∀ (s : State) (start dir : Bool), ∃ t : State, exec (.rst start dir) s = .next t ∧
    t.phase = .idle ∧ t.rnd = 0 ∧ t.done = false ∧ busy t = false ∧ t.ksCache = none ∧
    t = { s with phase := .idle, rnd := 0, done := false, ksCache := none, dir := t.dir, key := t.key, st := t.st, w := t.w }

/-- Rule R35: the values after reset that the spec gives. -/
def Obligations.ResetStateIsIdle : Prop :=
  State.reset.phase = .idle ∧ State.reset.done = false ∧ busy State.reset = false ∧ State.reset.rnd = 0 ∧
  State.reset.ksCache = none

/-! ## Micro-operations -/

/-- Rule R207: `EXPAND` writes all 44 words and `PHASE`, and the same words in either direction (rule R158); of a key-schedule
cache (rule R33) nothing is said. -/
def Obligations.ExpandWritesTheSchedule : Prop :=
  (∀ s : State, ∃ wd : Schedule, Returns (.kExpand (blockBytes s.key)) (.schedule wd) ∧
    ∀ d : Direction, ∃ c : Option Block, exec (.expand d) s = .next { s with w := wd, phase := .init, ksCache := c }) ∧
  (∀ s t : State, s.key = 0x2b7e151628aed2a6abf7158809cf4f3c → exec (.expand s.dir) s = .next t →
    t.w[4] = 0xa0fafe17 ∧ t.w[43] = 0xb6630ca6)

/-- Rules R208 and R209: the initial round-key addition of each direction. Where `W` is the schedule of `KEY`, that of
encryption makes `ST` the plaintext XOR the key. -/
def Obligations.InitAddsItsRoundKey : Prop :=
  ∀ s : State,
    (s.rnd = 0 → exec .encInit s = .next { s with st := addRoundKey s.st (rKey s.w 0), rnd := 1, phase := .main }) ∧
    (s.rnd = 10 → exec .decInit s = .next { s with st := addRoundKey s.st (rKey s.w 10), rnd := 9, phase := .main }) ∧
    (s.rnd = 0 → s.w = kExpand s.key → ∀ t, exec .encInit s = .next t → unloadState t.st = unloadState s.st ^^^ s.key)

/-- Rules R210 and R211: a main round of each direction, with the exit test on `RND` before it changes. -/
def Obligations.MainRoundsTransformAndCount : Prop :=
  ∀ s : State, 1 ≤ s.rnd → s.rnd ≤ 9 →
    (∃ r : Fin 11, r.val = s.rnd.val + 1 ∧ exec .encRound s = .next { s with
      st := addRoundKey (mixColumns (shiftRows (subBytes s.st))) (rKey s.w s.rnd)
      rnd := r
      phase := if s.rnd = 9 then .final else .main }) ∧
    (∃ r : Fin 11, r.val = s.rnd.val - 1 ∧ exec .decRound s = .next { s with
      st := invMixColumns (addRoundKey (invSubBytes (invShiftRows s.st)) (rKey s.w s.rnd))
      rnd := r
      phase := if s.rnd = 1 then .final else .main })

/-- Rules R212 and R213: the final round of each direction sets `DONE`, and `RND` keeps its value. -/
def Obligations.FinalRoundsSetDone : Prop :=
  ∀ s : State,
    (s.rnd = 10 → exec .encFinal s = .next { s with
      st := addRoundKey (shiftRows (subBytes s.st)) (rKey s.w 10), done := true, phase := .idle }) ∧
    (s.rnd = 0 → exec .decFinal s = .next { s with
      st := addRoundKey (invSubBytes (invShiftRows s.st)) (rKey s.w 0), done := true, phase := .idle })

/-- U8 of `93_implementation_defined.md`: a micro-operation whose operand `RND` is none of those of rule R84 has no
behaviour; the model stops there, by name (log entry 11). -/
def Obligations.OtherControlPositionsStop : Prop :=
  ∀ s : State,
    (s.rnd ≠ 0 → exec .encInit s = .fault .illegalControlPosition ∧ exec .decFinal s = .fault .illegalControlPosition) ∧
    (s.rnd ≠ 10 → exec .decInit s = .fault .illegalControlPosition ∧ exec .encFinal s = .fault .illegalControlPosition) ∧
    (s.rnd = 0 ∨ s.rnd = 10 →
      exec .encRound s = .fault .illegalControlPosition ∧ exec .decRound s = .fault .illegalControlPosition)

/-! ## Who writes what -/

/-- Rule R29: `DONE` is set by the final round, cleared by acceptance and by reset, and changed by nothing else. -/
def Obligations.DoneHasTheWritersOfItsRule : Prop :=
  ∀ (i : Instr) (s t : State), exec i s = .next t →
    match i with
    | .encFinal => t.done = true
    | .decFinal => t.done = true
    | .rst _ _ => t.done = false
    | .enc _ _ => t.done = if s.phase = .idle then false else s.done
    | .dec _ _ => t.done = if s.phase = .idle then false else s.done
    | _ => t.done = s.done

/-- Rules R22 and R25: `KEY` and `DIR` are written by the acceptance of a command only, and made unspecified by reset. -/
def Obligations.KeyAndDirAreWrittenByAcceptance : Prop :=
  ∀ (i : Instr) (s t : State), exec i s = .next t →
    match i with
    | .enc k _ => t.key = (if s.phase = .idle then k else s.key) ∧ t.dir = if s.phase = .idle then .encrypt else s.dir
    | .dec k _ => t.key = (if s.phase = .idle then k else s.key) ∧ t.dir = if s.phase = .idle then .decrypt else s.dir
    | .rst _ _ => True
    | _ => t.key = s.key ∧ t.dir = s.dir

/-- Rules R23 and R159: `W` is written by `EXPAND` only, all 44 words in one step, and made unspecified by reset. -/
def Obligations.ScheduleIsWrittenByExpand : Prop :=
  ∀ (i : Instr) (s t : State), exec i s = .next t →
    match i with
    | .expand _ => t.w = kExpand s.key
    | .rst _ _ => True
    | _ => t.w = s.w

/-- Rules R21 and R36: `ST` is written by acceptance and by the initial, main and final rounds, and made unspecified by
reset. -/
def Obligations.StateRegisterHasTheWritersOfItsRule : Prop :=
  ∀ (i : Instr) (s t : State), exec i s = .next t → t.st ≠ s.st →
    (i = .encInit ∨ i = .decInit ∨ i = .encRound ∨ i = .decRound ∨ i = .encFinal ∨ i = .decFinal) ∨
    (∃ st d, i = .rst st d) ∨
    (s.phase = .idle ∧ ∃ k b, (i = .enc k b ∨ i = .dec k b) ∧ t.st = loadBlock b)

/-! ## The step -/

/-- Rule R215: which instruction a step performs, and what it adds: the host's line is used up, the model's counter
advances, and the stalls of the micro-operation now pending are counted. -/
def Obligations.StepPerformsTheDecodedInstruction : Prop :=
  ∀ (s : State) (pins : BitVec 3) (key block : Operand) (rest : List HostLine),
    present s.done s.lines = (.pins pins key block, rest) →
    (pins.getLsbD 2 = true ∨ s.phase = .idle →
      step s = match exec (decodeCommand (commandWord pins (operandValue s key) (operandValue s block)))
          { s with lines := rest, freeIndex := s.freeIndex + 1 } with
        | .next t => .next { t with stallsLeft := t.pendingStalls }
        | .fault f => .fault f
        | .refused r => .refused r) ∧
    (pins.getLsbD 2 = false → s.phase ≠ .idle → s.stallsLeft = 0 →
      ∀ u, decodeMicroOp (microOpWord s.dir s.phase) = .ok u →
      step s = match exec u { s with lines := rest, freeIndex := s.freeIndex + 1 } with
        | .next t => .next { t with stallsLeft := t.pendingStalls }
        | .fault f => .fault f
        | .refused r => .refused r) ∧
    (pins.getLsbD 2 = false → s.phase ≠ .idle → s.stallsLeft ≠ 0 →
      step s = .next { s with lines := rest, freeIndex := s.freeIndex + 1, stallsLeft := s.stallsLeft - 1 })

/-- Rule R85: a call of a primitive by name performs the primitive (the call as a step is the model's, log entry 20). -/
def Obligations.CallPerformsThePrimitive : Prop :=
  ∀ (s : State) (p : PrimCall) (rest : List HostLine) (i : Instr),
    s.lines = .call p :: rest → decodePrimitive p = .ok i →
    step s = exec i { s with lines := rest, freeIndex := s.freeIndex + 1 }

/-- Rule R214: the control transfers, row by row, as steps of the machine; and rule R215: at a stall no register changes. That
the stalls are counted in `stallsLeft` is the model's (log entry 8). -/
def Obligations.ControlFollowsTheTable : Prop :=
  ∀ (s : State) (pins : BitVec 3) (k b : Operand) (rest : List HostLine),
    s.Inv → s.lines = .drive pins k b :: rest → ∃ t : State, step s = .next t ∧
      (pins.getLsbD 2 = true → t.phase = .idle ∧ t.rnd = 0 ∧ t.done = false) ∧
      (pins = 0b010#3 → s.phase = .idle → t.phase = .expand ∧ t.rnd = 0 ∧ t.dir = .encrypt) ∧
      (pins = 0b011#3 → s.phase = .idle → t.phase = .expand ∧ t.rnd = 10 ∧ t.dir = .decrypt) ∧
      (pins &&& 0b110#3 = 0#3 → s.phase = .idle →
        t.phase = .idle ∧ t.rnd = s.rnd ∧ t.dir = s.dir ∧ t.done = s.done ∧ t.st = s.st) ∧
      (pins.getLsbD 2 = false → s.phase ≠ .idle → s.stallsLeft = 0 →
        (t.phase, t.rnd.val) = positionAfter s.phase s.dir s.rnd.val ∧ t.dir = s.dir ∧
        (t.done = true ↔ s.phase = .final)) ∧
      (pins.getLsbD 2 = false → s.phase ≠ .idle → s.stallsLeft ≠ 0 →
        t.phase = s.phase ∧ t.rnd = s.rnd ∧ t.dir = s.dir ∧ t.done = s.done ∧ t.st = s.st ∧ t.w = s.w ∧ t.key = s.key)

/-- Rule R280: which micro-operation runs at which step depends on the control registers only: two engines that differ in
`KEY`, `ST`, `W`, in the operands on the ports and in the cache go to the same control position, and again have the same
lines before them, so that the statement can be applied step after step. `DIR` is control while an operation is under way
(`RST` leaves it unspecified). The stalls are the same too (rule R282; log entry 8), but for those of an `EXPAND` whose key only
one of the two caches holds (rule R33; log entry 9). -/
def Obligations.ControlIsIndependentOfData : Prop :=
  ∀ s s' t : State,
    s'.phase = s.phase → s'.rnd = s.rnd → s'.done = s.done → s'.stallsLeft = s.stallsLeft →
    (s'.dir = s.dir ∨ s.phase = .idle) → List.Forall₂ SamePins s.lines s'.lines → step s = .next t →
    ∃ t', step s' = .next t' ∧ t'.phase = t.phase ∧ t'.rnd = t.rnd ∧ t'.done = t.done ∧
      (t'.dir = t.dir ∨ t.phase = .idle) ∧ List.Forall₂ SamePins t.lines t'.lines ∧
      ((t.phase = .expand → (t.ksCache = some t.key ↔ t'.ksCache = some t'.key)) → t'.stallsLeft = t.stallsLeft) ∧
      (s'.dir = s.dir →
        (∀ pins key block rest, present s.done s.lines = (.pins pins key block, rest) → pins.getLsbD 2 = false) →
        t'.dir = t.dir)

/-- Rule R33: what the key-schedule cache holds makes no difference to any register after any instruction; it shows in the
number of stalls only. -/
def Obligations.CacheIsInvisibleInValues : Prop :=
  ∀ (i : Instr) (s t : State) (c : Option Block), exec i s = .next t →
    ∃ c', exec i { s with ksCache := c } = .next { t with ksCache := c' }

/-- Rules R26 and R29: the output ports. -/
def Obligations.OutputPortsShowTheirRegisters : Prop :=
  ∀ s : State, (outputPorts s).done = s.done ∧ ((outputPorts s).busy = true ↔ s.phase ≠ .idle) ∧
    (s.done = true → ∀ n : Fin 16, blockByte (outputPorts s).blockOut n = cell s.st ⟨n.val % 4, by omega⟩ ⟨n.val / 4, by omega⟩) ∧
    (s.Inv → (outputPorts s).done = true → (outputPorts s).busy = false)

/-- Rule R62 (b): a result stays on `block_out` while the host idles, with or without lines. -/
def Obligations.ResultStaysWhileTheHostIdles : Prop :=
  ∀ (s : State) (pins : BitVec 3) (k b : Operand) (rest : List HostLine),
    s.phase = .idle → s.done = true → (s.lines = [] ∧ rest = [] ∨ s.lines = .drive pins k b :: rest ∧ pins &&& 0b110#3 = 0#3) →
    step s = .next { s with lines := rest, freeIndex := s.freeIndex + 1, stallsLeft := 0 } ∧
    ∀ t, step s = .next t → outputPorts t = outputPorts s

/-- Rule R89: the pseudo-instructions are their expansions, and `OUT` is the value on `block_out`. -/
def Obligations.PseudoInstructionsAreTheirExpansions : Prop :=
  ∀ (s : State) (key block : Operand) (pins : BitVec 3) (rest : List HostLine),
    (s.done = false → step { s with lines := .wait :: rest }
      = step { s with lines := .drive 0b000#3 (.literal 0) (.literal 0) :: .wait :: rest }) ∧
    (s.done = true → step { s with lines := .wait :: rest } = step { s with lines := rest }) ∧
    step { s with lines := .rtrip key block :: rest }
      = step { s with lines := .drive 0b010#3 key block :: .wait :: .drive 0b011#3 key .out :: .wait :: rest } ∧
    (s.done = true → step { s with lines := .drive pins key .out :: rest }
      = step { s with lines := .drive pins key (.literal (unloadState s.st)) :: rest })

/-! ## Invariants and whole operations -/

/-- The invariant of rule R34 holds right after reset, whatever lines the host has. -/
def Obligations.ResetMeetsTheInvariant : Prop :=
  ∀ lines : List HostLine, ({ State.reset with lines := lines } : State).Inv

/-- The invariant of rule R34 is kept by every step, from every state that meets it. -/
def Obligations.EveryStepKeepsTheInvariant : Prop :=
  ∀ s t : State, s.Inv → step s = .next t → t.Inv

/-- Rule R34, in its own words, of every state reachable from reset. -/
def Obligations.ReachableStatesMeetRule34 : Prop :=
  ∀ (lines : List HostLine) (n : Nat) (t : State),
    Host.Core.run Sys2Proof.core n ({ State.reset with lines := lines } : State) = .next t →
    (t.phase = .init ∨ t.phase = .main ∨ t.phase = .final ∨ t.done = true →
      t.w = kExpand t.key ∧ ∀ a : Fin 4, t.w[a.val] = keyWord t.key a) ∧
    (t.done = true → t.phase = .idle) ∧
    (t.phase = .main → 1 ≤ t.rnd ∧ t.rnd ≤ 9) ∧
    (t.phase = .init → t.rnd = if t.dir = .encrypt then 0 else 10) ∧
    (t.phase = .final → t.rnd = if t.dir = .encrypt then 10 else 0)

/-- Rule R243: from a state that meets the invariant the step has no fault outcome, and a host that only drives the pins
always gets a next state. -/
def Obligations.NoStepFaults : Prop :=
  ∀ s : State, s.Inv → (∀ f, step s ≠ .fault f) ∧
    ((∀ l ∈ s.lines, l.drives = true) → ∃ t, step s = .next t)

/-- Rules R216 and R217: an accepted `ENC`, with no `RST` before its end, runs through its 12 micro-operations and their
stalls and ends idle, with `DONE = 1` for the first time and `ENCRYPTBLOCK` on `block_out`; the key and its schedule stay
(rule R277). The result depends on the two operands only: nothing is assumed of the other registers, of the host's later
lines or of the number of stalls. -/
def Obligations.EncryptionEndsWithItsResult : Prop :=
  ∀ (s : State) (key block : Block) (rest : List HostLine),
    s.phase = .idle → s.lines = .drive 0b010#3 (.literal key) (.literal block) :: rest → (∀ l ∈ rest, l.quiet = true) →
    (∃ t : State, Host.Core.run Sys2Proof.core (operationSteps s .encrypt key) s = .next t ∧
      t.done = true ∧ t.phase = .idle ∧ t.rnd = 10 ∧ t.dir = .encrypt ∧ t.key = key ∧ t.w = kExpand key ∧
      unloadState t.st = encryptBlock block key ∧ blockOut t = encryptBlock block key) ∧
    (∀ n, 0 < n → n < operationSteps s .encrypt key → ∃ t : State,
      Host.Core.run Sys2Proof.core n s = .next t ∧ t.done = false ∧ busy t = true)

/-- Rules R216 and R217 for `DEC` and `DECRYPTBLOCK`. -/
def Obligations.DecryptionEndsWithItsResult : Prop :=
  ∀ (s : State) (key block : Block) (rest : List HostLine),
    s.phase = .idle → s.lines = .drive 0b011#3 (.literal key) (.literal block) :: rest → (∀ l ∈ rest, l.quiet = true) →
    (∃ t : State, Host.Core.run Sys2Proof.core (operationSteps s .decrypt key) s = .next t ∧
      t.done = true ∧ t.phase = .idle ∧ t.rnd = 0 ∧ t.dir = .decrypt ∧ t.key = key ∧ t.w = kExpand key ∧
      unloadState t.st = decryptBlock block key ∧ blockOut t = decryptBlock block key) ∧
    (∀ n, 0 < n → n < operationSteps s .decrypt key → ∃ t : State,
      Host.Core.run Sys2Proof.core n s = .next t ∧ t.done = false ∧ busy t = true)

/-- The host line `RTRIP key, block` of rule R89, run on an idle engine, is worked off to its end, both `WAIT`s included, and
ends with the block itself on `block_out`: the round-trip property of rule R218 on the machine. -/
def Obligations.RoundTripLineGivesTheBlockBack : Prop :=
  ∀ (s : State) (key block : Block), s.phase = .idle → s.lines = [.rtrip (.literal key) (.literal block)] →
    ∃ (n : Nat) (t : State), 0 < n ∧ Host.Core.run Sys2Proof.core n s = .next t ∧ t.lines = [] ∧
      t.phase = .idle ∧ t.done = true ∧ t.dir = .decrypt ∧ t.key = key ∧ blockOut t = block

/-- Rule R38: no run from reset depends on the registers that reset leaves unspecified. Whatever `DIR`, `KEY`, `ST` and `W`
hold after reset, a host program gives the same control registers and the same returned value at every step, and the same
result whenever there is one. The program may use `OUT`, and `RTRIP`, as rule R89 allows: `OUT` is presented only at ticks with
`done = 1`. -/
def Obligations.UnspecifiedRegistersAreNotRead : Prop :=
  ∀ (lines : List HostLine) (regs : DataRegs) (n : Nat) (t : State),
    (∀ (m : Nat) (u : State), m < n →
      Host.Core.run Sys2Proof.core m ({ State.reset with lines := lines } : State) = .next u → OutIsLegal u) →
    Host.Core.run Sys2Proof.core n ({ State.reset with lines := lines } : State) = .next t →
    ∃ t' : State,
      Host.Core.run Sys2Proof.core n
        ({ State.reset with lines := lines, dir := regs.dir, key := regs.key, st := regs.st, w := regs.w } : State) = .next t' ∧
      t'.phase = t.phase ∧ t'.rnd = t.rnd ∧ t'.done = t.done ∧ t'.returned = t.returned ∧
      (t.done = true → blockOut t' = blockOut t)
end

