-- ==== Sys2Proof/Laws/Decode.lean ====
section
/-! SUPPORT. The fields of a command word read back what was put in (rule R81). -/

namespace Sys2Proof

@[simp] theorem pins_commandWord (p : BitVec 3) (k b : Block) : (commandWord p k b).pins = p := by
  apply BitVec.eq_of_getLsbD_eq
  intro i hi
  simp only [CommandWord.pins, commandWord, BitVec.getLsbD_extractLsb', BitVec.getLsbD_append]
  interval_cases i <;> simp

@[simp] theorem key_commandWord (p : BitVec 3) (k b : Block) : (commandWord p k b).key = k := by
  apply BitVec.eq_of_getLsbD_eq
  intro i hi
  simp only [CommandWord.key, commandWord, BitVec.getLsbD_extractLsb', BitVec.getLsbD_append]
  have h1 : ¬ 128 + i < 128 := by omega
  simp [h1, hi]

@[simp] theorem block_commandWord (p : BitVec 3) (k b : Block) : (commandWord p k b).block = b := by
  apply BitVec.eq_of_getLsbD_eq
  intro i hi
  simp only [CommandWord.block, commandWord, BitVec.getLsbD_extractLsb', BitVec.getLsbD_append]
  simp [hi]

@[simp] theorem pinBits_rst (rst start dir : Bool) : (pinBits rst start dir)[2] = rst := by
  cases rst <;> cases start <;> cases dir <;> rfl

@[simp] theorem pinBits_start (rst start dir : Bool) : (pinBits rst start dir)[1] = start := by
  cases rst <;> cases start <;> cases dir <;> rfl

@[simp] theorem pinBits_dir (rst start dir : Bool) : (pinBits rst start dir)[0] = dir := by
  cases rst <;> cases start <;> cases dir <;> rfl

@[simp] theorem directionOfBit_directionBit (d : Direction) : directionOfBit (directionBit d) = d := by cases d <;> rfl

@[simp] theorem phaseOfBits_phaseBits (p : Phase) : phaseOfBits (phaseBits p) = some p := by cases p <;> rfl

/-- A command word is made of its three fields. -/
theorem commandWord_fields (w : CommandWord) : commandWord w.pins w.key w.block = w := by
  apply BitVec.eq_of_getLsbD_eq
  intro i hi
  simp only [CommandWord.pins, CommandWord.key, CommandWord.block, commandWord, BitVec.getLsbD_extractLsb',
    BitVec.getLsbD_append]
  split
  · simp [*]
  · split
    · have : 128 + (i - 128) = i := by omega
      simp [*]
    · have : 256 + (i - 128 - 128) = i := by omega
      have : i - 128 - 128 < 3 := by omega
      simp [*]

/-- A command word decodes to a command. -/
theorem decodeCommand_cases (w : CommandWord) :
    (∃ st d, decodeCommand w = .rst st d) ∨ (∃ d, decodeCommand w = .nop d) ∨
    ∃ k b, decodeCommand w = .enc k b ∨ decodeCommand w = .dec k b := by
  simp only [decodeCommand]
  split
  · exact .inl ⟨_, _, rfl⟩
  · split
    · split
      · exact .inr (.inr ⟨_, _, .inl rfl⟩)
      · exact .inr (.inr ⟨_, _, .inr rfl⟩)
    · exact .inr (.inl ⟨_, rfl⟩)

end Sys2Proof
end

