-- ==== Sys2Proof/Laws/Gf.lean ====
section
/-! SUPPORT. `XTIME` is linear over `XOR`, and so is the multiply loop in its running value (rules R111, R112): what proofs
about the mix matrices need. -/

namespace Sys2Proof.Machine

theorem byte_xor_left_comm (a b c : Byte) : a ^^^ (b ^^^ c) = b ^^^ (a ^^^ c) := by
  rw [← BitVec.xor_assoc, BitVec.xor_comm a b, BitVec.xor_assoc]

@[simp] theorem xtime_zero : xtime 0#8 = 0#8 := by decide

theorem xtime_xor (v u : Byte) : xtime (v ^^^ u) = xtime v ^^^ xtime u := by
  unfold xtime
  have hs : (v ^^^ u) <<< 1 = (v <<< 1) ^^^ (u <<< 1) := BitVec.shiftLeft_xor_distrib v u 1
  simp only [BitVec.getLsbD_xor, hs]
  cases v.getLsbD 7 <;> cases u.getLsbD 7 <;>
    simp [BitVec.xor_assoc, BitVec.xor_comm Config.gfReduce]

theorem gfmulLoop_xor (a : Byte) (n i : Nat) (v u p q : Byte) :
    gfmulLoop a n i (v ^^^ u) (p ^^^ q) = gfmulLoop a n i v p ^^^ gfmulLoop a n i u q := by
  induction n generalizing i v u p q with
  | zero => rfl
  | succ n ih =>
    simp only [gfmulLoop, xtime_xor]
    rw [← ih]
    split
    · congr 1
      simp only [BitVec.xor_assoc, byte_xor_left_comm q]
    · rfl

@[simp] theorem gfmulLoop_zero (a : Byte) (n i : Nat) (p : Byte) : gfmulLoop a n i 0#8 p = p := by
  induction n generalizing i p with
  | zero => rfl
  | succ n ih => simp [gfmulLoop, ih]

end Sys2Proof.Machine
end

