-- ==== Sys2Proof/Laws/Layout.lean ====
section
/-! SUPPORT. The layouts read back what was laid out (rules R52 to R55): the bytes of a Word and of a block, the cells of a
State. -/

namespace Sys2Proof.Machine

/-! ## Cells -/

@[simp] theorem cell_ofCells (f : Fin 4 → Fin 4 → Byte) (r c : Fin 4) : cell (ofCells f) r c = f r c := by
  fin_cases r <;> fin_cases c <;> rfl

theorem CipherState.ext_cells {x y : CipherState} (h : ∀ r c, cell x r c = cell y r c) : x = y := by
  ext1
  exacts [h 0 0, h 0 1, h 0 2, h 0 3, h 1 0, h 1 1, h 1 2, h 1 3, h 2 0, h 2 1, h 2 2, h 2 3, h 3 0, h 3 1, h 3 2, h 3 3]

@[simp] theorem ofCells_cell (x : CipherState) : ofCells (cell x) = x := CipherState.ext_cells (by simp)

@[simp] theorem streamRow_streamIndex (r c : Fin 4) : streamRow (streamIndex r c) = r := by
  ext; simp [streamRow, streamIndex]

@[simp] theorem streamCol_streamIndex (r c : Fin 4) : streamCol (streamIndex r c) = c := by
  ext; simp only [streamCol, streamIndex]; omega

@[simp] theorem streamIndex_row_col (n : Fin 16) : streamIndex (streamRow n) (streamCol n) = n := by
  ext; simp only [streamRow, streamCol, streamIndex]; omega

/-! ## Bytes of a block -/

@[simp] theorem blockByte_blockOfBytes (f : Fin 16 → Byte) (n : Fin 16) : blockByte (blockOfBytes f) n = f n := by
  apply BitVec.eq_of_getLsbD_eq
  intro i hi
  simp only [blockByte, blockOfBytes, BitVec.getLsbD_extractLsb', BitVec.getLsbD_append]
  fin_cases n <;> interval_cases i <;> simp

theorem block_ext_bytes {x y : Block} (h : ∀ n, blockByte x n = blockByte y n) : x = y := by
  apply BitVec.eq_of_getLsbD_eq
  intro i hi
  have hb := congrArg (fun b : Byte => b.getLsbD (i % 8)) (h ⟨15 - i / 8, by omega⟩)
  simp only [blockByte, BitVec.getLsbD_extractLsb'] at hb
  have e : 120 - 8 * (15 - i / 8) + i % 8 = i := by omega
  simpa [e, Nat.mod_lt] using hb

@[simp] theorem blockOfBytes_blockByte (x : Block) : blockOfBytes (blockByte x) = x := block_ext_bytes (by simp)

@[simp] theorem blockByte_xor (x y : Block) (n : Fin 16) : blockByte (x ^^^ y) n = blockByte x n ^^^ blockByte y n := by
  simp [blockByte, BitVec.extractLsb'_xor]

@[simp] theorem blockBytes_length (x : Block) : (blockBytes x).length = 16 := by simp [blockBytes]

@[simp] theorem blockByte_blockOfList (l : List Byte) (h : l.length = 16) (n : Fin 16) :
    blockByte (blockOfList l h) n = l[n.val] := by simp [blockOfList]

@[simp] theorem blockOfList_blockBytes (x : Block) (h : (blockBytes x).length = 16) :
    blockOfList (blockBytes x) h = x :=
  block_ext_bytes fun n => by
    rw [blockByte_blockOfList]
    simp only [blockBytes, List.getElem_ofFn]

/-! ## Bytes of a Word -/

theorem wordByte_wordOfBytes (b0 b1 b2 b3 : Byte) (b : Fin 4) :
    wordByte (wordOfBytes b0 b1 b2 b3) b = match b with
      | 0 => b0
      | 1 => b1
      | 2 => b2
      | 3 => b3 := by
  apply BitVec.eq_of_getLsbD_eq
  intro i hi
  simp only [wordByte, wordOfBytes, BitVec.getLsbD_extractLsb', BitVec.getLsbD_append]
  fin_cases b <;> interval_cases i <;> simp

theorem word_ext_bytes {x y : Word} (h : ∀ b, wordByte x b = wordByte y b) : x = y := by
  apply BitVec.eq_of_getLsbD_eq
  intro i hi
  have hb := congrArg (fun b : Byte => b.getLsbD (i % 8)) (h ⟨3 - i / 8, by omega⟩)
  simp only [wordByte, BitVec.getLsbD_extractLsb'] at hb
  have e : 24 - 8 * (3 - i / 8) + i % 8 = i := by omega
  simpa [e, Nat.mod_lt] using hb

@[simp] theorem wordByte_xor (x y : Word) (b : Fin 4) : wordByte (x ^^^ y) b = wordByte x b ^^^ wordByte y b := by
  simp [wordByte, BitVec.extractLsb'_xor]

/-! ## `LOAD` and `UNLOAD` -/

@[simp] theorem cell_loadBlock (b : Block) (r c : Fin 4) : cell (loadBlock b) r c = blockByte b (streamIndex r c) := by
  simp [loadBlock]

@[simp] theorem blockByte_unloadState (x : CipherState) (n : Fin 16) :
    blockByte (unloadState x) n = cell x (streamRow n) (streamCol n) := by simp [unloadState]

end Sys2Proof.Machine
end

