-- ==== Sys2Proof/Laws/State.lean ====
section
/-! SUPPORT. One lemma for each field of `State` and each named operation of `Machine/Ops.lean`: what the field holds
after the operation. No later proof unfolds a record update. -/

namespace Sys2Proof.Machine

/-! ## `State.accept` -/

@[simp] theorem State.accept_st (s : State) (d : Direction) (key block : Block) :
    (s.accept d key block).st = loadBlock block := rfl
@[simp] theorem State.accept_key (s : State) (d : Direction) (key block : Block) :
    (s.accept d key block).key = key := rfl
@[simp] theorem State.accept_w (s : State) (d : Direction) (key block : Block) :
    (s.accept d key block).w = s.w := rfl
@[simp] theorem State.accept_dir (s : State) (d : Direction) (key block : Block) :
    (s.accept d key block).dir = d := rfl
@[simp] theorem State.accept_phase (s : State) (d : Direction) (key block : Block) :
    (s.accept d key block).phase = .expand := rfl
@[simp] theorem State.accept_rnd (s : State) (d : Direction) (key block : Block) :
    (s.accept d key block).rnd = firstRound d := rfl
@[simp] theorem State.accept_done (s : State) (d : Direction) (key block : Block) :
    (s.accept d key block).done = false := rfl
@[simp] theorem State.accept_ksCache (s : State) (d : Direction) (key block : Block) :
    (s.accept d key block).ksCache = s.ksCache := rfl
@[simp] theorem State.accept_lines (s : State) (d : Direction) (key block : Block) :
    (s.accept d key block).lines = s.lines := rfl
@[simp] theorem State.accept_returned (s : State) (d : Direction) (key block : Block) :
    (s.accept d key block).returned = s.returned := rfl
@[simp] theorem State.accept_stallsLeft (s : State) (d : Direction) (key block : Block) :
    (s.accept d key block).stallsLeft = s.stallsLeft := rfl
@[simp] theorem State.accept_freeIndex (s : State) (d : Direction) (key block : Block) :
    (s.accept d key block).freeIndex = s.freeIndex := rfl

/-! ## `State.writeSchedule` -/

@[simp] theorem State.writeSchedule_st (s : State) (wd : Schedule) :
    (s.writeSchedule wd).st = s.st := rfl
@[simp] theorem State.writeSchedule_key (s : State) (wd : Schedule) :
    (s.writeSchedule wd).key = s.key := rfl
@[simp] theorem State.writeSchedule_w (s : State) (wd : Schedule) :
    (s.writeSchedule wd).w = wd := rfl
@[simp] theorem State.writeSchedule_dir (s : State) (wd : Schedule) :
    (s.writeSchedule wd).dir = s.dir := rfl
@[simp] theorem State.writeSchedule_phase (s : State) (wd : Schedule) :
    (s.writeSchedule wd).phase = .init := rfl
@[simp] theorem State.writeSchedule_rnd (s : State) (wd : Schedule) :
    (s.writeSchedule wd).rnd = s.rnd := rfl
@[simp] theorem State.writeSchedule_done (s : State) (wd : Schedule) :
    (s.writeSchedule wd).done = s.done := rfl
@[simp] theorem State.writeSchedule_ksCache (s : State) (wd : Schedule) :
    (s.writeSchedule wd).ksCache = if Config.ksCache then some s.key else none := rfl
@[simp] theorem State.writeSchedule_lines (s : State) (wd : Schedule) :
    (s.writeSchedule wd).lines = s.lines := rfl
@[simp] theorem State.writeSchedule_returned (s : State) (wd : Schedule) :
    (s.writeSchedule wd).returned = s.returned := rfl
@[simp] theorem State.writeSchedule_stallsLeft (s : State) (wd : Schedule) :
    (s.writeSchedule wd).stallsLeft = s.stallsLeft := rfl
@[simp] theorem State.writeSchedule_freeIndex (s : State) (wd : Schedule) :
    (s.writeSchedule wd).freeIndex = s.freeIndex := rfl

/-! ## `State.writeRound` -/

@[simp] theorem State.writeRound_st (s : State) (x : CipherState) (p : Phase) (r : Fin 11) :
    (s.writeRound x p r).st = x := rfl
@[simp] theorem State.writeRound_key (s : State) (x : CipherState) (p : Phase) (r : Fin 11) :
    (s.writeRound x p r).key = s.key := rfl
@[simp] theorem State.writeRound_w (s : State) (x : CipherState) (p : Phase) (r : Fin 11) :
    (s.writeRound x p r).w = s.w := rfl
@[simp] theorem State.writeRound_dir (s : State) (x : CipherState) (p : Phase) (r : Fin 11) :
    (s.writeRound x p r).dir = s.dir := rfl
@[simp] theorem State.writeRound_phase (s : State) (x : CipherState) (p : Phase) (r : Fin 11) :
    (s.writeRound x p r).phase = p := rfl
@[simp] theorem State.writeRound_rnd (s : State) (x : CipherState) (p : Phase) (r : Fin 11) :
    (s.writeRound x p r).rnd = r := rfl
@[simp] theorem State.writeRound_done (s : State) (x : CipherState) (p : Phase) (r : Fin 11) :
    (s.writeRound x p r).done = s.done := rfl
@[simp] theorem State.writeRound_ksCache (s : State) (x : CipherState) (p : Phase) (r : Fin 11) :
    (s.writeRound x p r).ksCache = s.ksCache := rfl
@[simp] theorem State.writeRound_lines (s : State) (x : CipherState) (p : Phase) (r : Fin 11) :
    (s.writeRound x p r).lines = s.lines := rfl
@[simp] theorem State.writeRound_returned (s : State) (x : CipherState) (p : Phase) (r : Fin 11) :
    (s.writeRound x p r).returned = s.returned := rfl
@[simp] theorem State.writeRound_stallsLeft (s : State) (x : CipherState) (p : Phase) (r : Fin 11) :
    (s.writeRound x p r).stallsLeft = s.stallsLeft := rfl
@[simp] theorem State.writeRound_freeIndex (s : State) (x : CipherState) (p : Phase) (r : Fin 11) :
    (s.writeRound x p r).freeIndex = s.freeIndex := rfl

/-! ## `State.finish` -/

@[simp] theorem State.finish_st (s : State) (x : CipherState) :
    (s.finish x).st = x := rfl
@[simp] theorem State.finish_key (s : State) (x : CipherState) :
    (s.finish x).key = s.key := rfl
@[simp] theorem State.finish_w (s : State) (x : CipherState) :
    (s.finish x).w = s.w := rfl
@[simp] theorem State.finish_dir (s : State) (x : CipherState) :
    (s.finish x).dir = s.dir := rfl
@[simp] theorem State.finish_phase (s : State) (x : CipherState) :
    (s.finish x).phase = .idle := rfl
@[simp] theorem State.finish_rnd (s : State) (x : CipherState) :
    (s.finish x).rnd = s.rnd := rfl
@[simp] theorem State.finish_done (s : State) (x : CipherState) :
    (s.finish x).done = true := rfl
@[simp] theorem State.finish_ksCache (s : State) (x : CipherState) :
    (s.finish x).ksCache = s.ksCache := rfl
@[simp] theorem State.finish_lines (s : State) (x : CipherState) :
    (s.finish x).lines = s.lines := rfl
@[simp] theorem State.finish_returned (s : State) (x : CipherState) :
    (s.finish x).returned = s.returned := rfl
@[simp] theorem State.finish_stallsLeft (s : State) (x : CipherState) :
    (s.finish x).stallsLeft = s.stallsLeft := rfl
@[simp] theorem State.finish_freeIndex (s : State) (x : CipherState) :
    (s.finish x).freeIndex = s.freeIndex := rfl

/-! ## `State.resetRegs` -/

@[simp] theorem State.resetRegs_st (s : State) :
    (s.resetRegs).st = (Config.afterReset s.freeIndex s.dataRegs).st := rfl
@[simp] theorem State.resetRegs_key (s : State) :
    (s.resetRegs).key = (Config.afterReset s.freeIndex s.dataRegs).key := rfl
@[simp] theorem State.resetRegs_w (s : State) :
    (s.resetRegs).w = (Config.afterReset s.freeIndex s.dataRegs).w := rfl
@[simp] theorem State.resetRegs_dir (s : State) :
    (s.resetRegs).dir = (Config.afterReset s.freeIndex s.dataRegs).dir := rfl
@[simp] theorem State.resetRegs_phase (s : State) :
    (s.resetRegs).phase = .idle := rfl
@[simp] theorem State.resetRegs_rnd (s : State) :
    (s.resetRegs).rnd = 0 := rfl
@[simp] theorem State.resetRegs_done (s : State) :
    (s.resetRegs).done = false := rfl
@[simp] theorem State.resetRegs_ksCache (s : State) :
    (s.resetRegs).ksCache = none := rfl
@[simp] theorem State.resetRegs_lines (s : State) :
    (s.resetRegs).lines = s.lines := rfl
@[simp] theorem State.resetRegs_returned (s : State) :
    (s.resetRegs).returned = s.returned := rfl
@[simp] theorem State.resetRegs_stallsLeft (s : State) :
    (s.resetRegs).stallsLeft = s.stallsLeft := rfl
@[simp] theorem State.resetRegs_freeIndex (s : State) :
    (s.resetRegs).freeIndex = s.freeIndex := rfl

/-! ## `State.deliver` -/

@[simp] theorem State.deliver_st (s : State) (r : Returned) :
    (s.deliver r).st = s.st := rfl
@[simp] theorem State.deliver_key (s : State) (r : Returned) :
    (s.deliver r).key = s.key := rfl
@[simp] theorem State.deliver_w (s : State) (r : Returned) :
    (s.deliver r).w = s.w := rfl
@[simp] theorem State.deliver_dir (s : State) (r : Returned) :
    (s.deliver r).dir = s.dir := rfl
@[simp] theorem State.deliver_phase (s : State) (r : Returned) :
    (s.deliver r).phase = s.phase := rfl
@[simp] theorem State.deliver_rnd (s : State) (r : Returned) :
    (s.deliver r).rnd = s.rnd := rfl
@[simp] theorem State.deliver_done (s : State) (r : Returned) :
    (s.deliver r).done = s.done := rfl
@[simp] theorem State.deliver_ksCache (s : State) (r : Returned) :
    (s.deliver r).ksCache = s.ksCache := rfl
@[simp] theorem State.deliver_lines (s : State) (r : Returned) :
    (s.deliver r).lines = s.lines := rfl
@[simp] theorem State.deliver_returned (s : State) (r : Returned) :
    (s.deliver r).returned = r := rfl
@[simp] theorem State.deliver_stallsLeft (s : State) (r : Returned) :
    (s.deliver r).stallsLeft = s.stallsLeft := rfl
@[simp] theorem State.deliver_freeIndex (s : State) (r : Returned) :
    (s.deliver r).freeIndex = s.freeIndex := rfl

/-! ## `State.consume` -/

@[simp] theorem State.consume_st (s : State) (rest : List HostLine) :
    (s.consume rest).st = s.st := rfl
@[simp] theorem State.consume_key (s : State) (rest : List HostLine) :
    (s.consume rest).key = s.key := rfl
@[simp] theorem State.consume_w (s : State) (rest : List HostLine) :
    (s.consume rest).w = s.w := rfl
@[simp] theorem State.consume_dir (s : State) (rest : List HostLine) :
    (s.consume rest).dir = s.dir := rfl
@[simp] theorem State.consume_phase (s : State) (rest : List HostLine) :
    (s.consume rest).phase = s.phase := rfl
@[simp] theorem State.consume_rnd (s : State) (rest : List HostLine) :
    (s.consume rest).rnd = s.rnd := rfl
@[simp] theorem State.consume_done (s : State) (rest : List HostLine) :
    (s.consume rest).done = s.done := rfl
@[simp] theorem State.consume_ksCache (s : State) (rest : List HostLine) :
    (s.consume rest).ksCache = s.ksCache := rfl
@[simp] theorem State.consume_lines (s : State) (rest : List HostLine) :
    (s.consume rest).lines = rest := rfl
@[simp] theorem State.consume_returned (s : State) (rest : List HostLine) :
    (s.consume rest).returned = s.returned := rfl
@[simp] theorem State.consume_stallsLeft (s : State) (rest : List HostLine) :
    (s.consume rest).stallsLeft = s.stallsLeft := rfl
@[simp] theorem State.consume_freeIndex (s : State) (rest : List HostLine) :
    (s.consume rest).freeIndex = s.freeIndex + 1 := rfl

/-! ## `State.stall` -/

@[simp] theorem State.stall_st (s : State) :
    (s.stall).st = s.st := rfl
@[simp] theorem State.stall_key (s : State) :
    (s.stall).key = s.key := rfl
@[simp] theorem State.stall_w (s : State) :
    (s.stall).w = s.w := rfl
@[simp] theorem State.stall_dir (s : State) :
    (s.stall).dir = s.dir := rfl
@[simp] theorem State.stall_phase (s : State) :
    (s.stall).phase = s.phase := rfl
@[simp] theorem State.stall_rnd (s : State) :
    (s.stall).rnd = s.rnd := rfl
@[simp] theorem State.stall_done (s : State) :
    (s.stall).done = s.done := rfl
@[simp] theorem State.stall_ksCache (s : State) :
    (s.stall).ksCache = s.ksCache := rfl
@[simp] theorem State.stall_lines (s : State) :
    (s.stall).lines = s.lines := rfl
@[simp] theorem State.stall_returned (s : State) :
    (s.stall).returned = s.returned := rfl
@[simp] theorem State.stall_stallsLeft (s : State) :
    (s.stall).stallsLeft = s.stallsLeft - 1 := rfl
@[simp] theorem State.stall_freeIndex (s : State) :
    (s.stall).freeIndex = s.freeIndex := rfl

/-! ## `State.arm` -/

@[simp] theorem State.arm_st (s : State) :
    (s.arm).st = s.st := rfl
@[simp] theorem State.arm_key (s : State) :
    (s.arm).key = s.key := rfl
@[simp] theorem State.arm_w (s : State) :
    (s.arm).w = s.w := rfl
@[simp] theorem State.arm_dir (s : State) :
    (s.arm).dir = s.dir := rfl
@[simp] theorem State.arm_phase (s : State) :
    (s.arm).phase = s.phase := rfl
@[simp] theorem State.arm_rnd (s : State) :
    (s.arm).rnd = s.rnd := rfl
@[simp] theorem State.arm_done (s : State) :
    (s.arm).done = s.done := rfl
@[simp] theorem State.arm_ksCache (s : State) :
    (s.arm).ksCache = s.ksCache := rfl
@[simp] theorem State.arm_lines (s : State) :
    (s.arm).lines = s.lines := rfl
@[simp] theorem State.arm_returned (s : State) :
    (s.arm).returned = s.returned := rfl
@[simp] theorem State.arm_stallsLeft (s : State) :
    (s.arm).stallsLeft = s.pendingStalls := rfl
@[simp] theorem State.arm_freeIndex (s : State) :
    (s.arm).freeIndex = s.freeIndex := rfl

/-! ## The contents of the data registers -/

@[simp] theorem State.dataRegs_st (s : State) : s.dataRegs.st = s.st := rfl
@[simp] theorem State.dataRegs_key (s : State) : s.dataRegs.key = s.key := rfl
@[simp] theorem State.dataRegs_w (s : State) : s.dataRegs.w = s.w := rfl
@[simp] theorem State.dataRegs_dir (s : State) : s.dataRegs.dir = s.dir := rfl

end Sys2Proof.Machine
end

