-- ==== Sys2Proof/Laws/Ops.lean ====
section
/-! SUPPORT. One lemma for each shared operation: everything it can answer. -/

namespace Sys2Proof.Machine

theorem returnValue_eq (v : Value) (s : State) : returnValue v s = .next { s with returned := .value v } := rfl

theorem raiseError_eq (e : BoundaryError) (s : State) : raiseError e s = .next { s with returned := .error e } := rfl

theorem busy_eq_false_iff (s : State) : busy s = false ↔ s.phase = .idle := by simp [busy]

theorem busy_eq_true_iff (s : State) : busy s = true ↔ s.phase ≠ .idle := by simp [busy]

/-! ## The byte-sequence boundary -/

theorem checkBytes_of_length {l : List Byte} (h : l.length = 16) : checkBytes l = .ok (blockOfList l h) := by
  simp [checkBytes, h]

theorem checkBytes_of_length_ne {l : List Byte} (h : l.length ≠ 16) : checkBytes l = .error .invalidLength := by
  simp [checkBytes, h]

theorem checkOperands_of_length_ne {b key : List Nat} (h : b.length ≠ 16 ∨ key.length ≠ 16) :
    checkOperands b key = .error .invalidLength := by
  simp only [checkOperands]
  rw [dif_neg (by tauto)]

theorem checkOperands_of_domain {b key : List Nat} (hb : b.length = 16) (hk : key.length = 16)
    (h : ∃ n, (n ∈ b ∨ n ∈ key) ∧ 255 < n) : checkOperands b key = .error .domainViolation := by
  simp only [checkOperands]
  rw [dif_pos ⟨hb, hk⟩, if_neg]
  simp only [Bool.and_eq_true, List.all_eq_true, decide_eq_true_eq, not_and_or]
  obtain ⟨n, hn | hn, h255⟩ := h
  · exact .inl fun ha => by have := ha n hn; omega
  · exact .inr fun ha => by have := ha n hn; omega

theorem checkOperands_ok {b key : List Nat} (hb : b.length = 16) (hk : key.length = 16)
    (h : ∀ n, n ∈ b ∨ n ∈ key → n ≤ 255) :
    checkOperands b key = .ok (blockOfList (b.map (BitVec.ofNat 8)) (by simpa using hb),
      blockOfList (key.map (BitVec.ofNat 8)) (by simpa using hk)) := by
  simp only [checkOperands]
  rw [dif_pos ⟨hb, hk⟩, if_pos]
  simp only [Bool.and_eq_true, List.all_eq_true, decide_eq_true_eq]
  exact ⟨fun n hn => h n (.inl hn), fun n hn => h n (.inr hn)⟩

/-! ## What an instruction can do -/

/-- The instructions of the third level (rule R80). -/
def isPrimitive (i : Instr) : Bool :=
  match i with
  | .rst _ _ => false
  | .enc _ _ => false
  | .dec _ _ => false
  | .nop _ => false
  | .expand _ => false
  | .encInit => false
  | .decInit => false
  | .encRound => false
  | .decRound => false
  | .encFinal => false
  | .decFinal => false
  | .xor _ => true
  | .xtime _ => true
  | .gfmul _ _ => true
  | .subst _ => true
  | .invSubst _ => true
  | .rotWord _ => true
  | .subWord _ => true
  | .rconW _ => true
  | .kTransform _ _ => true
  | .kExpand _ => true
  | .rKey _ _ => true
  | .subBytes _ => true
  | .invSubBytes _ => true
  | .shiftRows _ => true
  | .invShiftRows _ => true
  | .mixColumns _ => true
  | .invMixColumns _ => true
  | .addRoundKey _ _ => true
  | .load _ => true
  | .unload _ => true
  | .encryptBlock _ _ => true
  | .decryptBlock _ _ => true

/-- A primitive always answers a next state, in which only what the call returned is new. -/
theorem exec_primitive {i : Instr} (h : isPrimitive i = true) (s : State) : ∃ r, exec i s = .next (s.deliver r) := by
  cases i with
  | kExpand key => simp only [exec, execKExpand]; split <;> exact ⟨_, rfl⟩
  | load b => simp only [exec, execLoad]; split <;> exact ⟨_, rfl⟩
  | encryptBlock p key => simp only [exec, execEncryptBlock]; split <;> exact ⟨_, rfl⟩
  | decryptBlock c key => simp only [exec, execDecryptBlock]; split <;> exact ⟨_, rfl⟩
  | _ => first
    | exact absurd h Bool.false_ne_true
    | exact ⟨_, rfl⟩

theorem armNext_eq_next {r : Result} {t : State} : armNext r = .next t ↔ ∃ u, r = .next u ∧ t = u.arm := by
  cases r <;> simp [armNext, eq_comm]

/-- Everything an instruction can do to the state when it answers a next state. -/
theorem exec_next_cases {i : Instr} {s t : State} (h : exec i s = .next t) :
    (t = s ∧ ((∃ d, i = .nop d) ∨ s.phase ≠ .idle ∧ ∃ k b, i = .enc k b ∨ i = .dec k b)) ∨
    (s.phase = .idle ∧ ∃ d k b, t = s.accept d k b ∧ i = match d with
      | .encrypt => .enc k b
      | .decrypt => .dec k b) ∨
    (t = s.resetRegs ∧ ∃ st d, i = .rst st d) ∨
    (t = s.writeSchedule (kExpand s.key) ∧ ∃ d, i = .expand d) ∨
    (i = .encInit ∧ s.rnd = 0 ∧ t = s.writeRound (addRoundKey s.st (rKey s.w s.rnd)) .main 1) ∨
    (i = .decInit ∧ s.rnd = 10 ∧ t = s.writeRound (addRoundKey s.st (rKey s.w s.rnd)) .main 9) ∨
    (i = .encRound ∧ (1 ≤ s.rnd ∧ s.rnd ≤ 9) ∧
      t = s.writeRound (encRoundFn s.st (rKey s.w s.rnd)) (if s.rnd = 9 then .final else .main) (s.rnd + 1)) ∨
    (i = .decRound ∧ (1 ≤ s.rnd ∧ s.rnd ≤ 9) ∧
      t = s.writeRound (decRoundFn s.st (rKey s.w s.rnd)) (if s.rnd = 1 then .final else .main) (s.rnd - 1)) ∨
    (i = .encFinal ∧ s.rnd = 10 ∧ t = s.finish (encFinalFn s.st (rKey s.w s.rnd))) ∨
    (i = .decFinal ∧ s.rnd = 0 ∧ t = s.finish (decFinalFn s.st (rKey s.w s.rnd))) ∨
    (isPrimitive i = true ∧ ∃ r, t = s.deliver r) := by
  by_cases hp : isPrimitive i = true
  · obtain ⟨r, hr⟩ := exec_primitive hp s
    iterate 10 right
    exact ⟨hp, r, Host.Outcome.next.inj (h.symm.trans hr)⟩
  · cases i with
    | rst st d => simp only [exec, execRst, Host.Outcome.next.injEq] at h; simp [h.symm]
    | enc k b =>
      simp only [exec, execEnc] at h
      split at h <;> simp only [Host.Outcome.next.injEq] at h
      · exact .inl ⟨h.symm, .inr ⟨(busy_eq_true_iff s).1 ‹_›, k, b, .inl rfl⟩⟩
      · exact .inr (.inl ⟨by simpa [busy] using ‹¬ busy s = true›, .encrypt, k, b, h.symm, rfl⟩)
    | dec k b =>
      simp only [exec, execDec] at h
      split at h <;> simp only [Host.Outcome.next.injEq] at h
      · exact .inl ⟨h.symm, .inr ⟨(busy_eq_true_iff s).1 ‹_›, k, b, .inr rfl⟩⟩
      · exact .inr (.inl ⟨by simpa [busy] using ‹¬ busy s = true›, .decrypt, k, b, h.symm, rfl⟩)
    | nop d => simp only [exec, execNop, Host.Outcome.next.injEq] at h; simp [h]
    | expand d => simp only [exec, execExpand, Host.Outcome.next.injEq] at h; simp [h.symm]
    | encInit =>
      iterate 4 right
      left
      simp only [exec, execEncInit] at h
      split at h <;> cases h
      exact ⟨rfl, ‹_›, rfl⟩
    | decInit =>
      iterate 5 right
      left
      simp only [exec, execDecInit] at h
      split at h <;> cases h
      exact ⟨rfl, ‹_›, rfl⟩
    | encRound =>
      iterate 6 right
      left
      simp only [exec, execEncRound] at h
      split at h <;> cases h
      exact ⟨rfl, ‹_›, rfl⟩
    | decRound =>
      iterate 7 right
      left
      simp only [exec, execDecRound] at h
      split at h <;> cases h
      exact ⟨rfl, ‹_›, rfl⟩
    | encFinal =>
      iterate 8 right
      left
      simp only [exec, execEncFinal] at h
      split at h <;> cases h
      exact ⟨rfl, ‹_›, rfl⟩
    | decFinal =>
      iterate 9 right
      left
      simp only [exec, execDecFinal] at h
      split at h <;> cases h
      exact ⟨rfl, ‹_›, rfl⟩
    | _ => exact absurd rfl hp

/-- No instruction touches the host's lines. -/
theorem exec_lines {i : Instr} {s t : State} (h : exec i s = .next t) : t.lines = s.lines := by
  obtain same | ⟨-, d, k, b, rfl, -⟩ | rst | expand | rounds := exec_next_cases h
  · rw [same.1]
  · exact State.accept_lines s d k b
  · rw [rst.1, State.resetRegs_lines]
  · rw [expand.1, State.writeSchedule_lines]
  · rcases rounds with u | u | u | u | u | u | ⟨-, r, rfl⟩
    on_goal 7 => exact State.deliver_lines s r
    all_goals simp only [u.2.2, State.writeRound_lines, State.finish_lines]

end Sys2Proof.Machine
end

