-- ==== Sys2Proof/Laws/PerInstr.lean ====
section
/-! SUPPORT. A statement about every instruction as syntax: its encoding has the width of its row of the opcode table, and
under the row's mask it is the row's match. The rows below are copied from `spec/opcode_table.json`, not from the encoder. -/

namespace Sys2Proof.Laws

/-- The match, mask and width of an instruction's row of the opcode table. -/
structure OpcodeRow where
  matchBits : Nat
  mask      : Nat
  width     : Nat
  deriving DecidableEq, Repr

/-- The row of each instruction. -/
def opcodeRow (i : Instr) : OpcodeRow :=
  match i with
  | .rst _ _ => ⟨0b100, 0b100, 3⟩
  | .enc _ _ => ⟨0b010, 0b111, 3⟩
  | .dec _ _ => ⟨0b011, 0b111, 3⟩
  | .nop _ => ⟨0b000, 0b110, 3⟩
  | .expand _ => ⟨0b0001, 0b0111, 4⟩
  | .encInit => ⟨0b0010, 0b1111, 4⟩
  | .decInit => ⟨0b1010, 0b1111, 4⟩
  | .encRound => ⟨0b0011, 0b1111, 4⟩
  | .decRound => ⟨0b1011, 0b1111, 4⟩
  | .encFinal => ⟨0b0100, 0b1111, 4⟩
  | .decFinal => ⟨0b1100, 0b1111, 4⟩
  | .xor _ => ⟨0b0, 0b0, 0⟩
  | .xtime _ => ⟨0b0, 0b0, 0⟩
  | .gfmul _ _ => ⟨0b0, 0b0, 0⟩
  | .subst _ => ⟨0b0, 0b1, 1⟩
  | .invSubst _ => ⟨0b1, 0b1, 1⟩
  | .rotWord _ => ⟨0b0, 0b0, 0⟩
  | .subWord _ => ⟨0b0, 0b0, 0⟩
  | .rconW _ => ⟨0b0, 0b0, 0⟩
  | .kTransform _ _ => ⟨0b0, 0b0, 0⟩
  | .kExpand _ => ⟨0b0, 0b0, 0⟩
  | .rKey _ _ => ⟨0b0, 0b0, 0⟩
  | .subBytes _ => ⟨0b0, 0b1, 1⟩
  | .invSubBytes _ => ⟨0b1, 0b1, 1⟩
  | .shiftRows _ => ⟨0b0, 0b1, 1⟩
  | .invShiftRows _ => ⟨0b1, 0b1, 1⟩
  | .mixColumns _ => ⟨0b0, 0b1, 1⟩
  | .invMixColumns _ => ⟨0b1, 0b1, 1⟩
  | .addRoundKey _ _ => ⟨0b0, 0b0, 0⟩
  | .load _ => ⟨0b0, 0b0, 0⟩
  | .unload _ => ⟨0b0, 0b0, 0⟩
  | .encryptBlock _ _ => ⟨0b0, 0b1, 1⟩
  | .decryptBlock _ _ => ⟨0b1, 0b1, 1⟩

/-- The encoding of the instruction is in its row of the opcode table. -/
def OpcodeTable.Statement (i : Instr) : Prop :=
  (encode i).tableWidth = (opcodeRow i).width ∧ (encode i).tableBits &&& (opcodeRow i).mask = (opcodeRow i).matchBits

theorem OpcodeTable.rst (start dir : Bool) : OpcodeTable.Statement (.rst start dir) := by
  cases start <;> cases dir <;> simp [OpcodeTable.Statement, encode, Encoded.tableBits, Encoded.tableWidth, opcodeRow] <;> decide

theorem OpcodeTable.enc (key block : Block) : OpcodeTable.Statement (.enc key block) := by
  simp [OpcodeTable.Statement, encode, Encoded.tableBits, Encoded.tableWidth, opcodeRow] <;> decide

theorem OpcodeTable.dec (key block : Block) : OpcodeTable.Statement (.dec key block) := by
  simp [OpcodeTable.Statement, encode, Encoded.tableBits, Encoded.tableWidth, opcodeRow] <;> decide

theorem OpcodeTable.nop (dir : Bool) : OpcodeTable.Statement (.nop dir) := by
  cases dir <;> simp [OpcodeTable.Statement, encode, Encoded.tableBits, Encoded.tableWidth, opcodeRow] <;> decide

theorem OpcodeTable.expand (dir : Direction) : OpcodeTable.Statement (.expand dir) := by
  cases dir <;> exact ⟨rfl, rfl⟩

theorem OpcodeTable.encInit : OpcodeTable.Statement (.encInit) := ⟨rfl, rfl⟩

theorem OpcodeTable.decInit : OpcodeTable.Statement (.decInit) := ⟨rfl, rfl⟩

theorem OpcodeTable.encRound : OpcodeTable.Statement (.encRound) := ⟨rfl, rfl⟩

theorem OpcodeTable.decRound : OpcodeTable.Statement (.decRound) := ⟨rfl, rfl⟩

theorem OpcodeTable.encFinal : OpcodeTable.Statement (.encFinal) := ⟨rfl, rfl⟩

theorem OpcodeTable.decFinal : OpcodeTable.Statement (.decFinal) := ⟨rfl, rfl⟩

theorem OpcodeTable.xor (ops : XorOperands) : OpcodeTable.Statement (.xor ops) := by
  simp [OpcodeTable.Statement, encode, encodeOne, encodeVariant, Encoded.tableBits, Encoded.tableWidth, opcodeRow]

theorem OpcodeTable.xtime (v : Byte) : OpcodeTable.Statement (.xtime v) := by
  simp [OpcodeTable.Statement, encode, encodeOne, encodeVariant, Encoded.tableBits, Encoded.tableWidth, opcodeRow]

theorem OpcodeTable.gfmul (a b : Byte) : OpcodeTable.Statement (.gfmul a b) := by
  simp [OpcodeTable.Statement, encode, encodeOne, encodeVariant, Encoded.tableBits, Encoded.tableWidth, opcodeRow]

theorem OpcodeTable.subst (x : Byte) : OpcodeTable.Statement (.subst x) := by
  simp [OpcodeTable.Statement, encode, encodeOne, encodeVariant, Encoded.tableBits, Encoded.tableWidth, opcodeRow]

theorem OpcodeTable.invSubst (x : Byte) : OpcodeTable.Statement (.invSubst x) := by
  simp [OpcodeTable.Statement, encode, encodeOne, encodeVariant, Encoded.tableBits, Encoded.tableWidth, opcodeRow]

theorem OpcodeTable.rotWord (w : Word) : OpcodeTable.Statement (.rotWord w) := by
  simp [OpcodeTable.Statement, encode, encodeOne, encodeVariant, Encoded.tableBits, Encoded.tableWidth, opcodeRow]

theorem OpcodeTable.subWord (w : Word) : OpcodeTable.Statement (.subWord w) := by
  simp [OpcodeTable.Statement, encode, encodeOne, encodeVariant, Encoded.tableBits, Encoded.tableWidth, opcodeRow]

theorem OpcodeTable.rconW (r : Fin 10) : OpcodeTable.Statement (.rconW r) := by
  simp [OpcodeTable.Statement, encode, encodeOne, encodeVariant, Encoded.tableBits, Encoded.tableWidth, opcodeRow]

theorem OpcodeTable.kTransform (w : Word) (r : Fin 10) : OpcodeTable.Statement (.kTransform w r) := by
  simp [OpcodeTable.Statement, encode, encodeOne, encodeVariant, Encoded.tableBits, Encoded.tableWidth, opcodeRow]

theorem OpcodeTable.kExpand (key : List Byte) : OpcodeTable.Statement (.kExpand key) := by
  simp [OpcodeTable.Statement, encode, encodeOne, encodeVariant, Encoded.tableBits, Encoded.tableWidth, opcodeRow]

theorem OpcodeTable.rKey (wd : Schedule) (r : Fin 11) : OpcodeTable.Statement (.rKey wd r) := by
  simp [OpcodeTable.Statement, encode, encodeOne, encodeVariant, Encoded.tableBits, Encoded.tableWidth, opcodeRow]

theorem OpcodeTable.subBytes (x : CipherState) : OpcodeTable.Statement (.subBytes x) := by
  simp [OpcodeTable.Statement, encode, encodeOne, encodeVariant, Encoded.tableBits, Encoded.tableWidth, opcodeRow]

theorem OpcodeTable.invSubBytes (x : CipherState) : OpcodeTable.Statement (.invSubBytes x) := by
  simp [OpcodeTable.Statement, encode, encodeOne, encodeVariant, Encoded.tableBits, Encoded.tableWidth, opcodeRow]

theorem OpcodeTable.shiftRows (x : CipherState) : OpcodeTable.Statement (.shiftRows x) := by
  simp [OpcodeTable.Statement, encode, encodeOne, encodeVariant, Encoded.tableBits, Encoded.tableWidth, opcodeRow]

theorem OpcodeTable.invShiftRows (x : CipherState) : OpcodeTable.Statement (.invShiftRows x) := by
  simp [OpcodeTable.Statement, encode, encodeOne, encodeVariant, Encoded.tableBits, Encoded.tableWidth, opcodeRow]

theorem OpcodeTable.mixColumns (x : CipherState) : OpcodeTable.Statement (.mixColumns x) := by
  simp [OpcodeTable.Statement, encode, encodeOne, encodeVariant, Encoded.tableBits, Encoded.tableWidth, opcodeRow]

theorem OpcodeTable.invMixColumns (x : CipherState) : OpcodeTable.Statement (.invMixColumns x) := by
  simp [OpcodeTable.Statement, encode, encodeOne, encodeVariant, Encoded.tableBits, Encoded.tableWidth, opcodeRow]

theorem OpcodeTable.addRoundKey (x : CipherState) (rk : Block) : OpcodeTable.Statement (.addRoundKey x rk) := by
  simp [OpcodeTable.Statement, encode, encodeOne, encodeVariant, Encoded.tableBits, Encoded.tableWidth, opcodeRow]

theorem OpcodeTable.load (b : List Byte) : OpcodeTable.Statement (.load b) := by
  simp [OpcodeTable.Statement, encode, encodeOne, encodeVariant, Encoded.tableBits, Encoded.tableWidth, opcodeRow]

theorem OpcodeTable.unload (x : CipherState) : OpcodeTable.Statement (.unload x) := by
  simp [OpcodeTable.Statement, encode, encodeOne, encodeVariant, Encoded.tableBits, Encoded.tableWidth, opcodeRow]

theorem OpcodeTable.encryptBlock (p key : List Nat) : OpcodeTable.Statement (.encryptBlock p key) := by
  simp [OpcodeTable.Statement, encode, encodeOne, encodeVariant, Encoded.tableBits, Encoded.tableWidth, opcodeRow]

theorem OpcodeTable.decryptBlock (c key : List Nat) : OpcodeTable.Statement (.decryptBlock c key) := by
  simp [OpcodeTable.Statement, encode, encodeOne, encodeVariant, Encoded.tableBits, Encoded.tableWidth, opcodeRow]

end Sys2Proof.Laws
end

