-- ==== Sys2Proof/Laws/Schedule.lean ====
section
/-! SUPPORT. The words of a key schedule under construction (rule R154): the first four are the key's, and every later one is
made from the words before it, however far the construction has come. -/

namespace Sys2Proof.Machine

theorem scheduleWords_key (key : Block) (n : Nat) (h : n ≤ 40) (a : Fin 4) :
    (scheduleWords key n h)[a.val]'(by omega) = keyWord key a := by
  induction n with
  | zero => fin_cases a <;> rfl
  | succ n ih =>
    simp only [scheduleWords]
    rw [Vector.getElem_push_lt (by omega)]
    exact ih (by omega)

theorem scheduleWords_next (key : Block) (n : Nat) (h : n ≤ 40) (i : Nat) (hi : i < n + 4) (h4 : 4 ≤ i) :
    (scheduleWords key n h)[i] =
      nextWord i (by omega) (scheduleWords key n h)[i - 1] (scheduleWords key n h)[i - 4] := by
  induction n with
  | zero => omega
  | succ n ih =>
    simp only [scheduleWords]
    rw [Vector.getElem_push_lt (i := i - 1) (by omega), Vector.getElem_push_lt (i := i - 4) (by omega)]
    by_cases hl : i < n + 4
    · rw [Vector.getElem_push_lt hl]
      exact ih (by omega) hl
    · obtain rfl : i = n + 4 := by omega
      rw [Vector.getElem_push_eq]
      rfl

end Sys2Proof.Machine
end

