-- ==== Sys2Proof/Laws/Step.lean ====
section
/-! SUPPORT. What a step can do, said once (rule R215), and the run of several steps. -/

namespace Sys2Proof.Machine

/-! ## Which micro-operation is pending -/

/-- The micro-operation that a control position selects (rule R84); none while the engine is idle. -/
def pendingMicroOp (d : Direction) (p : Phase) : Option Instr :=
  match p, d with
  | .idle, _ => none
  | .expand, d => some (.expand d)
  | .init, .encrypt => some .encInit
  | .init, .decrypt => some .decInit
  | .main, .encrypt => some .encRound
  | .main, .decrypt => some .decRound
  | .final, .encrypt => some .encFinal
  | .final, .decrypt => some .decFinal

theorem decodeMicroOp_microOpWord (d : Direction) (p : Phase) :
    decodeMicroOp (microOpWord d p) = match pendingMicroOp d p with
      | some u => .ok u
      | none => .error .idleSelectsNone := by
  cases d <;> cases p <;> rfl

theorem pendingMicroOp_eq_none {d : Direction} {p : Phase} : pendingMicroOp d p = none ↔ p = .idle := by
  cases d <;> cases p <;> simp [pendingMicroOp]

/-! ## One step -/

theorem consume_eq (s : State) (rest : List HostLine) :
    s.consume rest = { s with lines := rest, freeIndex := s.freeIndex + 1 } := rfl

@[simp] theorem busy_consume (s : State) (rest : List HostLine) : busy (s.consume rest) = busy s := rfl

theorem step_of_command {s : State} {pins : BitVec 3} {key block : Operand} {rest : List HostLine}
    (hp : present s.done s.lines = (.pins pins key block, rest)) (h : pins.getLsbD 2 = true ∨ s.phase = .idle) :
    step s = armNext (exec (decodeCommand (presentedWord s pins key block)) (s.consume rest)) := by
  have hw : (presentedWord s pins key block).pins = pins := by simp [presentedWord]
  simp only [step, machineStep, hp, tick, hw, busy_consume]
  rw [if_pos]
  rcases h with h | h
  · simp only [h, Bool.true_or]
  · rw [(busy_eq_false_iff s).2 h, Bool.not_false, Bool.or_true]

theorem step_of_busy {s : State} {pins : BitVec 3} {key block : Operand} {rest : List HostLine}
    (hp : present s.done s.lines = (.pins pins key block, rest)) (hr : pins.getLsbD 2 = false) (hi : s.phase ≠ .idle) :
    step s = engineStep (s.consume rest) := by
  have hw : (presentedWord s pins key block).pins = pins := by simp [presentedWord]
  have hb : busy s = true := by simp [busy, hi]
  simp only [step, machineStep, hp, tick, hw, hr, busy_consume, hb]
  rfl

theorem step_of_call {s : State} {p : PrimCall} {rest : List HostLine} (hp : present s.done s.lines = (.call p, rest)) :
    step s = callStep p (s.consume rest) := by
  simp only [step, machineStep, hp]

theorem engineStep_of_stall {s : State} (h : s.stallsLeft ≠ 0) : engineStep s = .next s.stall := by
  simp [engineStep, h]

theorem engineStep_of_pending {s : State} {u : Instr} (h : s.stallsLeft = 0) (hu : pendingMicroOp s.dir s.phase = some u) :
    engineStep s = armNext (exec u s) := by
  simp [engineStep, h, decodeMicroOp_microOpWord, hu]

/-- Everything a step can do when it answers a next state: a command or the pending micro-operation was performed, the
micro-operation stalled, or a primitive was called. -/
theorem step_next_cases {s t : State} (h : step s = .next t) :
    (∃ w rest u, (w.pins.getLsbD 2 = true ∨ s.phase = .idle) ∧
      exec (decodeCommand w) (s.consume rest) = .next u ∧ t = u.arm) ∨
    (∃ i rest u, s.phase ≠ .idle ∧ s.stallsLeft = 0 ∧ pendingMicroOp s.dir s.phase = some i ∧
      exec i (s.consume rest) = .next u ∧ t = u.arm) ∨
    (∃ rest, s.phase ≠ .idle ∧ s.stallsLeft ≠ 0 ∧ t = (s.consume rest).stall) ∨
    (∃ p i rest, decodePrimitive p = .ok i ∧ exec i (s.consume rest) = .next t) := by
  rcases hp : present s.done s.lines with ⟨_ | p, rest⟩
  · rename_i pins key block
    by_cases hc : pins.getLsbD 2 = true ∨ s.phase = .idle
    · rw [step_of_command hp hc] at h
      obtain ⟨u, hu, rfl⟩ := armNext_eq_next.1 h
      exact .inl ⟨_, rest, u, by simpa [presentedWord] using hc, hu, rfl⟩
    · obtain ⟨hr, hi⟩ := not_or.1 hc
      rw [step_of_busy hp (by simpa using hr) hi] at h
      by_cases hs : s.stallsLeft = 0
      · cases hu : pendingMicroOp s.dir s.phase with
        | none => exact absurd (pendingMicroOp_eq_none.1 hu) hi
        | some i =>
          rw [engineStep_of_pending (s := s.consume rest) hs hu] at h
          obtain ⟨u, hu', rfl⟩ := armNext_eq_next.1 h
          exact .inr (.inl ⟨i, rest, u, hi, hs, rfl, hu', rfl⟩)
      · rw [engineStep_of_stall (s := s.consume rest) hs] at h
        cases h
        exact .inr (.inr (.inl ⟨rest, hi, hs, rfl⟩))
  · rw [step_of_call hp, callStep] at h
    split at h
    · exact .inr (.inr (.inr ⟨p, _, rest, ‹_›, h⟩))
    · cases h

/-- A step uses up what the host presented, and nothing else of its lines. -/
theorem step_lines {s t : State} (h : step s = .next t) : t.lines = (present s.done s.lines).2 := by
  rcases hp : present s.done s.lines with ⟨_ | p, rest⟩
  · rename_i pins key block
    by_cases hc : pins.getLsbD 2 = true ∨ s.phase = .idle
    · rw [step_of_command hp hc] at h
      obtain ⟨u, hu, rfl⟩ := armNext_eq_next.1 h
      exact exec_lines hu
    · obtain ⟨hr, hi⟩ := not_or.1 hc
      rw [step_of_busy hp (by simpa using hr) hi, engineStep] at h
      split at h
      · cases h; rfl
      · split at h
        · obtain ⟨u, hu, rfl⟩ := armNext_eq_next.1 h
          exact exec_lines hu
        · cases h
  · rw [step_of_call hp, callStep] at h
    split at h
    · exact exec_lines h
    · cases h

/-! ## A primitive that a call decodes to changes no register -/

theorem isPrimitive_of_decodePrimitive {p : PrimCall} {i : Instr} (h : decodePrimitive p = .ok i) : isPrimitive i = true := by
  obtain ⟨fn, inv, args⟩ := p
  rcases inv with _ | _ | _ <;> cases fn <;>
    simp only [decodePrimitive, oneVariant, twoVariants, rconIndex, roundKeyIndex] at h <;>
    first
    | cases h
    | (split at h <;> first
        | (cases h; done)
        | (cases h; rfl)
        | (split at h <;> first
            | (cases h; done)
            | (cases h; rfl)))

/-! ## Several steps -/

theorem run_succ_of_next {n : Nat} {s t : State} (h : step s = .next t) :
    Host.Core.run Sys2Proof.core (n + 1) s = Host.Core.run Sys2Proof.core n t := by
  have h' : Sys2Proof.core.step s = .next t := h
  simp only [Host.Core.run, h']

/-- A run that ends in a next state began with a step that did. -/
theorem run_succ_eq_next {n : Nat} {s t : State} (h : Host.Core.run Sys2Proof.core (n + 1) s = .next t) :
    ∃ u : State, step s = .next u ∧ Host.Core.run Sys2Proof.core n u = .next t := by
  cases hs : step s with
  | next u => exact ⟨u, rfl, by rw [← run_succ_of_next hs]; exact h⟩
  | fault f =>
    have h' : Sys2Proof.core.step s = .fault f := hs
    simp only [Host.Core.run, h'] at h
    cases h
  | refused r =>
    have h' : Sys2Proof.core.step s = .refused r := hs
    simp only [Host.Core.run, h'] at h
    cases h

/-- What a step keeps, a run keeps. -/
theorem run_invariant {P : State → Prop} (hstep : ∀ s t, P s → step s = .next t → P t) {n : Nat} {s t : State}
    (hs : P s) (h : Host.Core.run Sys2Proof.core n s = .next t) : P t := by
  induction n generalizing s with
  | zero => cases h; exact hs
  | succ n ih =>
    obtain ⟨u, hu, hr⟩ := run_succ_eq_next h
    exact ih (hstep s u hs hu) hr

theorem run_add {m n : Nat} {s t : State} (h : Host.Core.run Sys2Proof.core m s = .next t) :
    Host.Core.run Sys2Proof.core (m + n) s = Host.Core.run Sys2Proof.core n t := by
  induction m generalizing s with
  | zero => cases h; rw [Nat.zero_add]
  | succ m ih =>
    obtain ⟨u, hu, hr⟩ := run_succ_eq_next h
    rw [Nat.add_right_comm, run_succ_of_next hu]
    exact ih hr

/-- A pending micro-operation is performed after its stalls (the fairness of rule R282): the run of an idling host through
the stalls and the step that performs it. -/
theorem run_of_pending {s : State} {i : Instr} (hp : pendingMicroOp s.dir s.phase = some i) (hl : s.lines = []) :
    Host.Core.run Sys2Proof.core (s.stallsLeft + 1) s
      = armNext (exec i { s with freeIndex := s.freeIndex + s.stallsLeft + 1, stallsLeft := 0 }) := by
  have hi : s.phase ≠ .idle := fun h => by rw [pendingMicroOp_eq_none.2 h] at hp; cases hp
  have hs : step s = engineStep (s.consume []) :=
    step_of_busy (pins := nopPins) (key := .literal 0) (block := .literal 0) (by rw [hl]; rfl) rfl hi
  induction hn : s.stallsLeft generalizing s with
  | zero =>
    rw [engineStep_of_pending (s := s.consume []) hn hp] at hs
    have e : s.consume [] = { s with freeIndex := s.freeIndex + 0 + 1, stallsLeft := 0 } := by
      rw [consume_eq, ← hl]
      simp only [hn, Nat.add_zero]
    rw [← e]
    cases hx : exec i (s.consume []) with
    | next u => rw [run_succ_of_next (by rw [hs, hx]; rfl)]; rfl
    | fault f =>
      have h' : Sys2Proof.core.step s = .fault f := by rw [hx] at hs; exact hs
      simp only [Host.Core.run, h']; rfl
    | refused r =>
      have h' : Sys2Proof.core.step s = .refused r := by rw [hx] at hs; exact hs
      simp only [Host.Core.run, h']; rfl
  | succ n ih =>
    rw [engineStep_of_stall (s := s.consume []) (by rw [State.consume_stallsLeft, hn]; omega)] at hs
    rw [run_succ_of_next hs]
    have hstep : step (s.consume []).stall = engineStep ((s.consume []).stall.consume []) :=
      step_of_busy (pins := nopPins) (key := .literal 0) (block := .literal 0) rfl rfl hi
    rw [ih (s := (s.consume []).stall) hp rfl hi hstep (by simp [hn])]
    simp only [State.stall, State.consume, hl]
    congr 3
    omega

/-! ## The invariant -/

/-- What the invariant reads: two states that agree on these registers meet it together. -/
theorem State.Inv.of_registers {s t : State} (hi : s.Inv) (hphase : t.phase = s.phase) (hrnd : t.rnd = s.rnd)
    (hdir : t.dir = s.dir) (hdone : t.done = s.done) (hw : t.w = s.w) (hkey : t.key = s.key)
    (hcache : t.ksCache = s.ksCache) : t.Inv where
  schedule := by simpa only [ScheduleOk, hphase, hdone, hw, hkey] using hi.schedule
  doneIdle := by rw [hphase, hdone]; exact hi.doneIdle
  position := by simpa only [PositionOk, hphase, hrnd, hdir] using hi.position
  cache := by simpa only [CacheOk, hw, hcache] using hi.cache

end Sys2Proof.Machine
end

