-- ==== Sys2Proof/Tests/Slice0.lean ====
section
/-! SUPPORT. Tests: ill-formed terms, words written out from the encodings of `30_encoding.md`, single steps with the values
of `95_test_vectors.md` (V1 to V32, named at each), the host's two questions on opcode-table numbers, and for every statement
with hypotheses a concrete case that meets them. -/

namespace Sys2Proof.Tests

set_option Elab.async false

open Sys2Proof Sys2Proof.Machine

/-! ## Helpers -/

/-- The document's key, plaintext and ciphertext (V1). -/
def keyK : Block := 0x2b7e151628aed2a6abf7158809cf4f3c
def blockP : Block := 0x3243f6a8885a308d313198a2e0370734
def blockC : Block := 0x3925841d02dc09fbdc118597196a0b32

/-- One field of the next state, if there is one. -/
def look {α : Type} (f : State → α) (r : Result) : Option α :=
  match r with
  | .next t => some (f t)
  | .fault _ => none
  | .refused _ => none

/-- What an instruction returns, run in the reset state. -/
def returns (i : Instr) : Option Returned := look State.returned (exec i State.reset)

/-- An engine at a control position, with the key and the schedule of `keyK`. -/
def engineAt (d : Direction) (p : Phase) (r : Fin 11) (x : Block) : State :=
  { State.reset with dir := d, phase := p, rnd := r, st := loadBlock x, key := keyK, w := kExpand keyK }

/-- The control position and the State, as the tables of V30 and of Part 3 write them. -/
def position (s : State) : Phase × Fin 11 × Direction × Bool × Block := (s.phase, s.rnd, s.dir, s.done, unloadState s.st)

/-! ## Ill-formed terms, one for each check of `WellFormed.lean` -/

theorem test_wf_kexpand_15_bytes : (Instr.kExpand (List.replicate 15 0)).wellFormed = false := by decide
theorem test_wf_load_17_bytes : (Instr.load (List.replicate 17 0)).wellFormed = false := by decide
theorem test_wf_encrypt_short_block :
    (Instr.encryptBlock (List.replicate 15 0) (List.replicate 16 0)).wellFormed = false := by decide
theorem test_wf_encrypt_24_byte_key :
    (Instr.encryptBlock (List.replicate 16 0) (List.replicate 24 0)).wellFormed = false := by decide
theorem test_wf_encrypt_element_256 :
    (Instr.encryptBlock (256 :: List.replicate 15 0) (List.replicate 16 0)).wellFormed = false := by decide
theorem test_wf_encrypt_key_element_256 :
    (Instr.encryptBlock (List.replicate 16 0) (256 :: List.replicate 15 0)).wellFormed = false := by decide
theorem test_wf_decrypt_long_block :
    (Instr.decryptBlock (List.replicate 17 0) (List.replicate 16 0)).wellFormed = false := by decide
theorem test_wf_decrypt_element_256 :
    (Instr.decryptBlock (List.replicate 16 0) (256 :: List.replicate 15 0)).wellFormed = false := by decide
theorem test_wf_encrypt_bytes_255 :
    (Instr.encryptBlock (List.replicate 16 255) (List.replicate 16 255)).wellFormed = true := by decide

/-! ## Words written out: commands, rule R81 -/

theorem test_decode_rst : decodeCommand (0b100#3 ++ 0#128 ++ 0#128) = .rst false false := by decide +kernel
theorem test_decode_rst_wins : decodeCommand (0b111#3 ++ 0#128 ++ 0#128) = .rst true true := by decide +kernel
theorem test_decode_enc : decodeCommand (0b010#3 ++ 5#128 ++ 7#128) = .enc 5 7 := by decide +kernel
theorem test_decode_dec : decodeCommand (0b011#3 ++ 5#128 ++ 7#128) = .dec 5 7 := by decide +kernel
theorem test_decode_nop : decodeCommand (0b000#3 ++ 5#128 ++ 7#128) = .nop false := by decide +kernel
theorem test_decode_nop_dir : decodeCommand (0b001#3 ++ 5#128 ++ 7#128) = .nop true := by decide +kernel

/-! ## Words written out: micro-operations, rule R84 -/

theorem test_decode_expand : decodeMicroOp 0b0001 = .ok (.expand .encrypt) := by rfl
theorem test_decode_expand_dec : decodeMicroOp 0b1001 = .ok (.expand .decrypt) := by rfl
theorem test_decode_enc_init : decodeMicroOp 0b0010 = .ok .encInit := by rfl
theorem test_decode_dec_init : decodeMicroOp 0b1010 = .ok .decInit := by rfl
theorem test_decode_enc_round : decodeMicroOp 0b0011 = .ok .encRound := by rfl
theorem test_decode_dec_round : decodeMicroOp 0b1011 = .ok .decRound := by rfl
theorem test_decode_enc_final : decodeMicroOp 0b0100 = .ok .encFinal := by rfl
theorem test_decode_dec_final : decodeMicroOp 0b1100 = .ok .decFinal := by rfl
theorem test_decode_idle : decodeMicroOp 0b1000 = .error .idleSelectsNone := by rfl
theorem test_decode_phase_5 : decodeMicroOp 0b0101 = .error .reservedPhase := by rfl
theorem test_decode_phase_7 : decodeMicroOp 0b1111 = .error .reservedPhase := by rfl

/-! ## Words written out: primitives, rules R13 and R85 -/

theorem test_decode_xor : decodePrimitive ⟨.xor, none, [.word 1, .word 2]⟩ = .ok (.xor (.words 1 2)) := by rfl
theorem test_decode_xor_widths : decodePrimitive ⟨.xor, none, [.word 1, .byte 2]⟩ = .error .wrongOperands := by rfl
theorem test_decode_xtime : decodePrimitive ⟨.xtime, none, [.byte 1]⟩ = .ok (.xtime 1) := by rfl
theorem test_decode_multiply : decodePrimitive ⟨.multiply, none, [.byte 1, .byte 2]⟩ = .ok (.gfmul 1 2) := by rfl
theorem test_decode_substitute : decodePrimitive ⟨.substitute, some false, [.byte 1]⟩ = .ok (.subst 1) := by rfl
theorem test_decode_substitute_inverse : decodePrimitive ⟨.substitute, some true, [.byte 1]⟩ = .ok (.invSubst 1) := by rfl
theorem test_decode_substitute_no_flag : decodePrimitive ⟨.substitute, none, [.byte 1]⟩ = .error .missingInverse := by rfl
theorem test_decode_rotword : decodePrimitive ⟨.rotWord, none, [.word 1]⟩ = .ok (.rotWord 1) := by rfl
theorem test_decode_rotword_flag : decodePrimitive ⟨.rotWord, some true, [.word 1]⟩ = .error .unexpectedInverse := by rfl
theorem test_decode_subword : decodePrimitive ⟨.subWord, none, [.word 1]⟩ = .ok (.subWord 1) := by rfl
theorem test_decode_rcon_9 : decodePrimitive ⟨.roundConstant, none, [.index 9]⟩ = .ok (.rconW 9) := by rfl
theorem test_decode_transform : decodePrimitive ⟨.transform, none, [.word 1, .index 2]⟩ = .ok (.kTransform 1 2) := by rfl
theorem test_decode_transform_10 :
    decodePrimitive ⟨.transform, none, [.word 1, .index 10]⟩ = .error .indexOutOfRange := by rfl
theorem test_decode_expand_key : decodePrimitive ⟨.expand, none, [.bytes [1, 2]]⟩ = .ok (.kExpand [1, 2]) := by rfl
theorem test_decode_round_key_10 (wd : Schedule) :
    decodePrimitive ⟨.roundKey, none, [.schedule wd, .index 10]⟩ = .ok (.rKey wd 10) := by rfl
theorem test_decode_round_key_11 (wd : Schedule) :
    decodePrimitive ⟨.roundKey, none, [.schedule wd, .index 11]⟩ = .error .indexOutOfRange := by rfl
theorem test_decode_subbytes (x : CipherState) :
    decodePrimitive ⟨.subBytes, some false, [.state x]⟩ = .ok (.subBytes x) ∧
    decodePrimitive ⟨.subBytes, some true, [.state x]⟩ = .ok (.invSubBytes x) := ⟨rfl, rfl⟩
theorem test_decode_shiftrows (x : CipherState) :
    decodePrimitive ⟨.shiftRows, some false, [.state x]⟩ = .ok (.shiftRows x) ∧
    decodePrimitive ⟨.shiftRows, some true, [.state x]⟩ = .ok (.invShiftRows x) := ⟨rfl, rfl⟩
theorem test_decode_mixcolumns (x : CipherState) :
    decodePrimitive ⟨.mixColumns, some false, [.state x]⟩ = .ok (.mixColumns x) ∧
    decodePrimitive ⟨.mixColumns, some true, [.state x]⟩ = .ok (.invMixColumns x) := ⟨rfl, rfl⟩
theorem test_decode_addroundkey (x : CipherState) :
    decodePrimitive ⟨.addRoundKey, none, [.state x, .block 3]⟩ = .ok (.addRoundKey x 3) := by rfl
theorem test_decode_load : decodePrimitive ⟨.load, none, [.bytes []]⟩ = .ok (.load []) := by rfl
theorem test_decode_unload (x : CipherState) : decodePrimitive ⟨.unload, none, [.state x]⟩ = .ok (.unload x) := by rfl
theorem test_decode_cryptblock :
    decodePrimitive ⟨.cryptBlock, some false, [.numbers [1], .numbers [2]]⟩ = .ok (.encryptBlock [1] [2]) ∧
    decodePrimitive ⟨.cryptBlock, some true, [.numbers [1], .numbers [2]]⟩ = .ok (.decryptBlock [1] [2]) := ⟨rfl, rfl⟩

/-! ## Numbers of the opcode table, and the step that fetches them -/

theorem test_table_enc : decodeTableWord 8 0b010 = some (.enc 0 0) := by decide +kernel
theorem test_table_rst : decodeTableWord 8 0b100 = some (.rst false false) := by decide +kernel
theorem test_table_dec_round : decodeTableWord 8 0b1011 = some .decRound := by decide +kernel
theorem test_table_four_bits : decodeTableWord 4 0b0011 = some .encRound := by decide +kernel
theorem test_table_reserved : decodeTableWord 8 0b1101 = none := by decide +kernel
theorem test_fetch_dec : look (fun t => (t.phase, t.rnd, t.dir)) (step (State.reset.withFetchWord 8 0b011))
    = some (.expand, 10, .decrypt) := by decide +kernel
theorem test_fetch_dec_init : look (fun t => (t.phase, t.rnd, t.dir)) (step (State.reset.withFetchWord 8 0b1010))
    = some (.main, 9, .decrypt) := by decide +kernel
theorem test_fetch_dec_final : look (fun t => (t.phase, t.done)) (step (State.reset.withFetchWord 8 0b1100))
    = some (.idle, true) := by decide +kernel

/-! ## Primitives: V9 to V19 -/

theorem test_xor_bytes : returns (.xor (.bytes 0xff 0x01)) = some (.value (.byte 0xfe)) := by decide +kernel
theorem test_xor_words : returns (.xor (.words 0x8b84eb01 0x2b7e1516)) = some (.value (.word 0xa0fafe17)) := by decide +kernel
theorem test_xtime_no_reduction : returns (.xtime 0x40) = some (.value (.byte 0x80)) := by decide +kernel
theorem test_xtime_reduction : returns (.xtime 0x8e) = some (.value (.byte 0x07)) := by decide +kernel
theorem test_gfmul_general : returns (.gfmul 0x57 0x83) = some (.value (.byte 0xc1)) := by decide +kernel
theorem test_gfmul_inv_mix : returns (.gfmul 0x0b 0xd4) = some (.value (.byte 0x9d)) := by decide +kernel
theorem test_subst_row : returns (.subst 0x10) = some (.value (.byte 0xca)) := by decide +kernel
theorem test_subst_column : returns (.subst 0x01) = some (.value (.byte 0x7c)) := by decide +kernel
theorem test_invsubst_row : returns (.invSubst 0xca) = some (.value (.byte 0x10)) := by decide +kernel
theorem test_invsubst_general : returns (.invSubst 0xeb) = some (.value (.byte 0x3c)) := by decide +kernel
theorem test_rotword : returns (.rotWord 0x2a6c7605) = some (.value (.word 0x6c76052a)) := by decide +kernel
theorem test_subword : returns (.subWord 0x6c76052a) = some (.value (.word 0x50386be5)) := by decide +kernel
theorem test_rconw_8 : returns (.rconW 8) = some (.value (.word 0x1b000000)) := by decide +kernel
theorem test_ktransform : returns (.kTransform 0x575c006e 9) = some (.value (.word 0x7c639f5b)) := by decide +kernel
theorem test_kexpand_last : (kExpand keyK)[40] = 0xd014f9a8 ∧ (kExpand keyK)[43] = 0xb6630ca6 := by decide +kernel
theorem test_kexpand_length : returns (.kExpand (List.replicate 24 0)) = some (.error .invalidLength) := by decide +kernel
theorem test_rkey_5 :
    returns (.rKey (kExpand 0x000102030405060708090a0b0c0d0e0f) 5)
      = some (.value (.block 0x3caaa3e8a99f9deb50f3af57adf622aa)) := by decide +kernel
theorem test_subbytes : returns (.subBytes (loadBlock 0xd4bf5d30e0b452aeb84111f11e2798e5))
    = some (.value (.state (loadBlock 0x48084c04e18d00e46c8382a172cc46d9))) := by decide +kernel
theorem test_invsubbytes : returns (.invSubBytes (loadBlock 0xd4bf5d30e0b452aeb84111f11e2798e5))
    = some (.value (.state (loadBlock 0x19f48d08a0c648be9af8e32be93de22a))) := by decide +kernel
theorem test_shiftrows : returns (.shiftRows (loadBlock 0x000102030405060708090a0b0c0d0e0f))
    = some (.value (.state (loadBlock 0x00050a0f04090e03080d02070c01060b))) := by decide +kernel
theorem test_invshiftrows : returns (.invShiftRows (loadBlock 0x000102030405060708090a0b0c0d0e0f))
    = some (.value (.state (loadBlock 0x000d0a0704010e0b0805020f0c090603))) := by decide +kernel
theorem test_mixcolumns : returns (.mixColumns (loadBlock 0xdb135345f20a225c01010101c6c6c6c6))
    = some (.value (.state (loadBlock 0x8e4da1bc9fdc589d01010101c6c6c6c6))) := by decide +kernel
theorem test_invmixcolumns : returns (.invMixColumns (loadBlock 0xdb135345f20a225c01010101c6c6c6c6))
    = some (.value (.state (loadBlock 0x32a41d55aec3698201010101c6c6c6c6))) := by decide +kernel
theorem test_addroundkey : returns (.addRoundKey (loadBlock 0x000102030405060708090a0b0c0d0e0f) 0xffeeddccbbaa99887766554433221100)
    = some (.value (.state (loadBlock 0xffefdfcfbfaf9f8f7f6f5f4f3f2f1f0f))) := by decide +kernel
theorem test_load_row_0 : (loadBlock 0x000102030405060708090a0b0c0d0e0f).s01 = 0x04 ∧
    (loadBlock 0x000102030405060708090a0b0c0d0e0f).s10 = 0x01 := by decide +kernel
theorem test_unload :
    returns (.unload ⟨0x39, 0x02, 0xdc, 0x19, 0x25, 0xdc, 0x11, 0x6a, 0x84, 0x09, 0x85, 0x0b, 0x1d, 0xfb, 0x97, 0x32⟩)
      = some (.value (.block blockC)) := by decide +kernel

/-! ## Whole blocks: V1 to V6, and the error boundary: V32 -/

theorem test_encrypt_v3 : encryptBlock 0x00112233445566778899aabbccddeeff 0x000102030405060708090a0b0c0d0e0f
    = 0x69c4e0d86a7b0430d8cdb78070b4c55a := by decide +kernel
theorem test_decrypt_v4 : decryptBlock 0 0 = 0x140f0f1011b5223d79587717ffd9ec3a := by decide +kernel
theorem test_encrypt_length_before_domain :
    returns (.encryptBlock (256 :: List.replicate 14 0) (List.replicate 16 0)) = some (.error .invalidLength) := by
  decide +kernel
theorem test_decrypt_domain :
    returns (.decryptBlock (List.replicate 16 0) (256 :: List.replicate 15 0)) = some (.error .domainViolation) := by
  decide +kernel

/-! ## Commands and micro-operations: V30 -/

theorem test_enc_accepted : look position (exec (.enc keyK blockP) State.reset)
    = some (.expand, 0, .encrypt, false, blockP) := by decide +kernel
theorem test_enc_ignored : look position (exec (.enc 0 0) (engineAt .encrypt .expand 0 blockP))
    = some (.expand, 0, .encrypt, false, blockP) := by decide +kernel
theorem test_dec_accepted : look position (exec (.dec keyK blockC) (engineAt .encrypt .idle 10 blockC))
    = some (.expand, 10, .decrypt, false, blockC) := by decide +kernel
theorem test_nop : look position (exec (.nop true) (engineAt .encrypt .idle 10 blockC))
    = some (.idle, 10, .encrypt, false, blockC) := by decide +kernel
theorem test_rst : look (fun t => (t.phase, t.rnd, t.done)) (exec (.rst true false) (engineAt .decrypt .main 5 blockC))
    = some (.idle, 0, false) := by decide +kernel
theorem test_expand : look (fun t => (t.phase, t.w[4])) (exec (.expand .encrypt) (engineAt .encrypt .expand 0 blockP))
    = some (.init, 0xa0fafe17) := by decide +kernel
theorem test_enc_init : look position (exec .encInit (engineAt .encrypt .init 0 blockP))
    = some (.main, 1, .encrypt, false, 0x193de3bea0f4e22b9ac68d2ae9f84808) := by decide +kernel
theorem test_dec_init : look position (exec .decInit (engineAt .decrypt .init 10 blockC))
    = some (.main, 9, .decrypt, false, 0xe9317db5cb322c723d2e895faf090794) := by decide +kernel
theorem test_enc_round_first : look position (exec .encRound (engineAt .encrypt .main 1 0x193de3bea0f4e22b9ac68d2ae9f84808))
    = some (.main, 2, .encrypt, false, 0xa49c7ff2689f352b6b5bea43026a5049) := by decide +kernel
theorem test_enc_round_last : look position (exec .encRound (engineAt .encrypt .main 9 0xea835cf00445332d655d98ad8596b0c5))
    = some (.final, 10, .encrypt, false, 0xeb40f21e592e38848ba113e71bc342d2) := by decide +kernel
theorem test_dec_round_first : look position (exec .decRound (engineAt .decrypt .main 9 0xe9317db5cb322c723d2e895faf090794))
    = some (.main, 8, .decrypt, false, 0x876e46a6f24ce78c4d904ad897ecc395) := by decide +kernel
theorem test_dec_round_last : look position (exec .decRound (engineAt .decrypt .main 1 0x49db873b453953897f02d2f177de961a))
    = some (.final, 0, .decrypt, false, 0xd4bf5d30e0b452aeb84111f11e2798e5) := by decide +kernel
theorem test_enc_final : look position (exec .encFinal (engineAt .encrypt .final 10 0xeb40f21e592e38848ba113e71bc342d2))
    = some (.idle, 10, .encrypt, true, blockC) := by decide +kernel
theorem test_dec_final : look position (exec .decFinal (engineAt .decrypt .final 0 0xd4bf5d30e0b452aeb84111f11e2798e5))
    = some (.idle, 0, .decrypt, true, blockP) := by decide +kernel

/-- The tick `010, Z, Z` at `(EXPAND, 0)`: the pending micro-operation is performed and the command leaves no trace (V30). -/
theorem test_tick_ignores_enc :
    look (fun t => (t.phase, t.key, t.w[43]))
      (step { engineAt .encrypt .expand 0 blockP with lines := [.drive 0b010 (.literal 0) (.literal 0)] })
      = some (.init, keyK, 0xb6630ca6) := by decide +kernel

/-- `rst` wins over `start` presented at the same tick (V30). -/
theorem test_tick_rst_wins :
    look (fun t => (t.phase, t.rnd, t.done))
      (step { engineAt .decrypt .main 5 blockC with lines := [.drive 0b110 (.literal keyK) (.literal blockP)] })
      = some (.idle, 0, false) := by decide +kernel

/-! ## Witnesses: a concrete case that meets the hypotheses of each statement -/

theorem witness_CommandWordsArePartitioned :
    (0b110#3 ++ 0#128 ++ 0#128 : CommandWord).extractLsb' 256 3 &&& 0b100#3 = 0b100#3 ∧
    (0b010#3 ++ 0#128 ++ 0#128 : CommandWord).extractLsb' 256 3 &&& 0b111#3 = 0b010#3 ∧
    (0b011#3 ++ 0#128 ++ 0#128 : CommandWord).extractLsb' 256 3 &&& 0b111#3 = 0b011#3 ∧
    (0b001#3 ++ 0#128 ++ 0#128 : CommandWord).extractLsb' 256 3 &&& 0b110#3 = 0b000#3 := by decide +kernel

theorem witness_EncodeOfDecodeIsTheWord :
    decode (.microOp 0b1011) = .ok .decRound ∧ (∀ st d, Instr.decRound ≠ .rst st d) ∧ ∀ d, Instr.decRound ≠ .nop d :=
  ⟨rfl, fun _ _ => Instr.noConfusion, fun _ => Instr.noConfusion⟩

theorem witness_XtimeShiftsAndReduces : (0x7f : Byte).toNat < 128 ∧ 128 ≤ (0x80 : Byte).toNat := by decide

theorem witness_GfmulAccumulatesDoublings : (0x01 : Byte) ≠ 0 ∧ (0xff : Byte) ≠ 0 := by decide

theorem witness_KeyScheduleFollowsTheRecurrence :
    (List.replicate 16 (0 : Byte)).length = 16 ∧ (List.replicate 15 (0 : Byte)).length ≠ 16 ∧ 3 < 4 ∧
    4 ≤ 4 ∧ 4 % 4 = 0 ∧ 43 < 44 ∧ 43 % 4 ≠ 0 := by decide

theorem witness_equal_column : cell (loadBlock 0x01010101c6c6c6c60000000000000000) 1 1 = cell (loadBlock 0x01010101c6c6c6c60000000000000000) 0 1 ∧
    cell (loadBlock 0x01010101c6c6c6c60000000000000000) 2 1 = cell (loadBlock 0x01010101c6c6c6c60000000000000000) 0 1 ∧
    cell (loadBlock 0x01010101c6c6c6c60000000000000000) 3 1 = cell (loadBlock 0x01010101c6c6c6c60000000000000000) 0 1 := by
  decide +kernel

theorem witness_LoadAndUnloadAreColumnMajor :
    (List.replicate 16 (7 : Byte)).length = 16 ∧ (List.replicate 17 (7 : Byte)).length ≠ 16 := by decide

theorem witness_TransformsActOnTheirLanes :
    (∀ r, cell (loadBlock 0x00112233445566778899aabbccddeeff) r 0 = cell (loadBlock 0x00112233000000000000000000000000) r 0) ∧
    loadBlock 0x00112233445566778899aabbccddeeff ≠ loadBlock 0x00112233000000000000000000000000 := by decide +kernel

theorem witness_round_indices : (1 : Fin 11) ≤ 1 ∧ (1 : Fin 11) ≤ 9 ∧ (1 : Fin 11) ≤ 9 ∧ (9 : Fin 11) ≤ 9 := by decide

theorem witness_OperandErrorsComeInTheirOrder_length :
    (List.replicate 15 0).length ≠ 16 ∧ (List.replicate 16 0).length = 16 ∧ (List.replicate 32 0).length ≠ 16 := by decide

theorem witness_OperandErrorsComeInTheirOrder_domain :
    (256 :: List.replicate 15 0).length = 16 ∧ (List.replicate 16 255).length = 16 ∧
    (∃ n, (n ∈ (256 :: List.replicate 15 0) ∨ n ∈ List.replicate 16 255) ∧ 255 < n) ∧
    ∀ n, n ∈ List.replicate 16 255 ∨ n ∈ List.replicate 16 0 → n ≤ 255 := by
  refine ⟨rfl, rfl, ⟨256, .inl (by simp), by omega⟩, fun n hn => ?_⟩
  rcases hn with hn | hn <;> have := List.eq_of_mem_replicate hn <;> omega

theorem witness_EncIsAcceptedWhenIdle : State.reset.phase = .idle ∧
    ∃ t, exec (.enc keyK blockP) State.reset = .next t := ⟨rfl, _, rfl⟩

theorem witness_DecIsAcceptedWhenIdle : State.reset.phase = .idle ∧
    ∃ t, exec (.dec keyK blockC) State.reset = .next t := ⟨rfl, _, rfl⟩

theorem witness_ExpandWritesTheSchedule :
    (engineAt .encrypt .expand 0 blockP).key = 0x2b7e151628aed2a6abf7158809cf4f3c ∧
    ∃ t, exec (.expand (engineAt .encrypt .expand 0 blockP).dir) (engineAt .encrypt .expand 0 blockP) = .next t :=
  ⟨rfl, _, rfl⟩

theorem witness_InitAddsItsRoundKey :
    (engineAt .encrypt .init 0 blockP).rnd = 0 ∧ (engineAt .decrypt .init 10 blockC).rnd = 10 ∧
    (engineAt .encrypt .init 0 blockP).w = kExpand (engineAt .encrypt .init 0 blockP).key ∧
    ∃ t, exec .encInit (engineAt .encrypt .init 0 blockP) = .next t := ⟨rfl, rfl, rfl, _, rfl⟩

theorem witness_MainRoundsTransformAndCount :
    (1 ≤ (engineAt .encrypt .main 1 blockP).rnd ∧ (engineAt .encrypt .main 1 blockP).rnd ≤ 9) ∧
    1 ≤ (engineAt .decrypt .main 9 blockP).rnd ∧ (engineAt .decrypt .main 9 blockP).rnd ≤ 9 := by decide

theorem witness_FinalRoundsSetDone :
    (engineAt .encrypt .final 10 blockP).rnd = 10 ∧ (engineAt .decrypt .final 0 blockP).rnd = 0 := ⟨rfl, rfl⟩

theorem witness_OtherControlPositionsStop :
    (engineAt .encrypt .init 1 blockP).rnd ≠ 0 ∧ (engineAt .decrypt .init 9 blockP).rnd ≠ 10 ∧
    (engineAt .encrypt .main 0 blockP).rnd = 0 ∧ (engineAt .encrypt .main 10 blockP).rnd = 10 := by decide

/-- For the four statements on who writes what: each kind of instruction answers a next state somewhere. -/
theorem witness_writers :
    (∃ t, exec .encFinal (engineAt .encrypt .final 10 blockP) = .next t) ∧
    (∃ t, exec .decFinal (engineAt .decrypt .final 0 blockP) = .next t) ∧
    (∃ t, exec (.rst false false) State.reset = .next t) ∧
    (∃ t, exec (.enc 1 2) State.reset = .next t ∧ t.st ≠ State.reset.st) ∧
    (∃ t, exec (.dec 1 2) (engineAt .encrypt .main 3 blockP) = .next t) ∧
    (∃ t, exec (.expand .decrypt) State.reset = .next t) ∧
    (∃ t, exec (.xtime 1) State.reset = .next t) :=
  ⟨⟨_, rfl⟩, ⟨_, rfl⟩, ⟨_, rfl⟩, ⟨_, rfl, by decide +kernel⟩, ⟨_, rfl⟩, ⟨_, rfl⟩, ⟨_, rfl⟩⟩

/-- An engine with one line before it. -/
def withLine (s : State) (l : HostLine) : State := { s with lines := [l] }

/-- A line that drives the pins with operands of zeros. -/
def drive (pins : BitVec 3) : HostLine := .drive pins (.literal 0) (.literal 0)

theorem witness_StepPerformsTheDecodedInstruction :
    present (withLine State.reset (drive 0b010)).done (withLine State.reset (drive 0b010)).lines
      = (.pins 0b010 (.literal 0) (.literal 0), []) ∧
    State.reset.phase = .idle ∧ (0b100#3).getLsbD 2 = true ∧ (0b010#3).getLsbD 2 = false ∧
    (engineAt .decrypt .main 9 blockC).phase ≠ .idle ∧ (engineAt .decrypt .main 9 blockC).stallsLeft = 0 ∧
    decodeMicroOp (microOpWord (engineAt .decrypt .main 9 blockC).dir (engineAt .decrypt .main 9 blockC).phase) = .ok .decRound ∧
    ({ engineAt .decrypt .main 9 blockC with stallsLeft := 1 } : State).stallsLeft ≠ 0 :=
  ⟨rfl, rfl, rfl, rfl, by decide, rfl, rfl, by decide⟩

theorem witness_CallPerformsThePrimitive :
    (withLine State.reset (.call ⟨.xtime, none, [.byte 1]⟩)).lines = .call ⟨.xtime, none, [.byte 1]⟩ :: [] ∧
    decodePrimitive ⟨.xtime, none, [.byte 1]⟩ = .ok (.xtime 1) := ⟨rfl, rfl⟩

theorem witness_NopAndIgnoredStartsChangeNothing :
    (engineAt .encrypt .main 1 blockP).phase ≠ .idle ∧ (0b011#3).getLsbD 2 = false ∧ (0b000#3).getLsbD 2 = false ∧
    ∃ t, step (withLine (engineAt .encrypt .main 1 blockP) (drive 0b011)) = .next t := ⟨by decide, rfl, rfl, _, rfl⟩

/-- Every position of rule R34 (d) meets the invariant, here with the schedule of `keyK`. -/
theorem witness_inv_position (d : Direction) (p : Phase) (r : Fin 11) (h : PositionOk (engineAt d p r blockP))
    (l : HostLine) : (withLine (engineAt d p r blockP) l).Inv where
  schedule := fun _ => rfl
  doneIdle := fun hd => nomatch hd
  position := h
  cache := fun _ hk => nomatch hk

theorem witness_ControlFollowsTheTable :
    (withLine (engineAt .encrypt .idle 0 blockP) (drive 0b010)).Inv ∧
    (withLine (engineAt .encrypt .idle 0 blockP) (drive 0b011)).Inv ∧
    (withLine (engineAt .encrypt .idle 10 blockP) (drive 0b001)).Inv ∧
    (withLine (engineAt .decrypt .main 5 blockP) (drive 0b100)).Inv ∧
    (withLine (engineAt .encrypt .expand 0 blockP) (drive 0b000)).Inv ∧
    (withLine (engineAt .encrypt .main 9 blockP) (drive 0b010)).Inv ∧
    (withLine (engineAt .decrypt .main 1 blockP) (drive 0b000)).Inv ∧
    (withLine (engineAt .decrypt .final 0 blockP) (drive 0b000)).Inv ∧
    (withLine (engineAt .encrypt .main 9 blockP) (drive 0b010)).stallsLeft = 0 ∧
    (0b001#3 &&& 0b110#3) = 0#3 := by
  refine ⟨?_, ?_, ?_, ?_, ?_, ?_, ?_, ?_, rfl, rfl⟩ <;> apply witness_inv_position
  all_goals first
    | exact trivial
    | rfl
    | (show (1 : Fin 11) ≤ 5 ∧ (5 : Fin 11) ≤ 9; decide)
    | (show (1 : Fin 11) ≤ 9 ∧ (9 : Fin 11) ≤ 9; decide)
    | (show (1 : Fin 11) ≤ 1 ∧ (1 : Fin 11) ≤ 9; decide)

theorem witness_ControlFollowsTheTable_stalled :
    ({ withLine (engineAt .encrypt .main 9 blockP) (drive 0b010) with stallsLeft := 1 } : State).Inv ∧
    ({ withLine (engineAt .encrypt .main 9 blockP) (drive 0b010) with stallsLeft := 1 } : State).stallsLeft ≠ 0 :=
  ⟨(witness_inv_position .encrypt .main 9 (by show (1 : Fin 11) ≤ 9 ∧ (9 : Fin 11) ≤ 9; decide) (drive 0b010)).of_registers
    rfl rfl rfl rfl rfl rfl rfl, by decide⟩

/-- Two engines at one control position with different data and different operands on the ports: in a main round; idle, where
the command is accepted and `EXPAND` is next, with both caches empty; and with no line left. -/
theorem witness_ControlIsIndependentOfData :
    (engineAt .encrypt .main 3 blockP).phase = (engineAt .encrypt .main 3 blockC).phase ∧
    (engineAt .encrypt .main 3 blockP).st ≠ (engineAt .encrypt .main 3 blockC).st ∧
    List.Forall₂ SamePins [.wait, drive 0b010] [.wait, .drive 0b010 (.literal keyK) .out] ∧
    (∃ t, step { engineAt .encrypt .main 3 blockP with lines := [.wait, drive 0b010] } = .next t) ∧
    (∃ t t', step (withLine (engineAt .encrypt .idle 10 blockP) (drive 0b011)) = .next t ∧
      step (withLine (engineAt .encrypt .idle 10 blockC) (drive 0b011)) = .next t' ∧ t.phase = .expand ∧
      (t.ksCache = some t.key ↔ t'.ksCache = some t'.key)) ∧
    (∃ t, step (engineAt .decrypt .final 0 blockP) = .next t) ∧
    (withLine State.reset (drive 0b010)).dir = State.reset.dir ∧
    (∀ pins key block rest, present (withLine State.reset (drive 0b010)).done (withLine State.reset (drive 0b010)).lines
      = (.pins pins key block, rest) → pins.getLsbD 2 = false) := by
  refine ⟨rfl, by decide +kernel, by simp [SamePins, drive], ⟨_, rfl⟩, ⟨_, _, rfl, rfl, rfl, ?_⟩, ⟨_, rfl⟩, rfl, ?_⟩
  · exact ⟨fun h => (nomatch h), fun h => (nomatch h)⟩
  · rintro pins key block rest h
    cases h
    rfl

theorem witness_CacheIsInvisibleInValues :
    ∃ t, exec (.expand .encrypt) { engineAt .encrypt .expand 0 blockP with ksCache := some 5 } = .next t := ⟨_, rfl⟩

/-- An idle engine that holds a result. -/
def engineDone : State := { engineAt .encrypt .idle 10 blockC with done := true }

theorem inv_engineDone : engineDone.Inv where
  schedule := fun _ => rfl
  doneIdle := fun _ => rfl
  position := trivial
  cache := fun _ hk => nomatch hk

theorem witness_OutputPortsShowTheirRegisters : engineDone.done = true ∧ engineDone.Inv ∧ (outputPorts engineDone).done = true :=
  ⟨rfl, inv_engineDone, rfl⟩

theorem witness_ResultStaysWhileTheHostIdles :
    engineDone.phase = .idle ∧ engineDone.done = true ∧ engineDone.lines = [] ∧
    (withLine engineDone (drive 0b001)).lines = .drive 0b001 (.literal 0) (.literal 0) :: [] ∧
    0b001#3 &&& 0b110#3 = 0#3 ∧ ∃ t, step engineDone = .next t := ⟨rfl, rfl, rfl, rfl, rfl, _, rfl⟩

theorem witness_PseudoInstructionsAreTheirExpansions : State.reset.done = false ∧ engineDone.done = true := ⟨rfl, rfl⟩

theorem witness_EveryStepKeepsTheInvariant :
    (withLine (engineAt .encrypt .expand 0 blockP) (drive 0b000)).Inv ∧
    ∃ t, step (withLine (engineAt .encrypt .expand 0 blockP) (drive 0b000)) = .next t :=
  ⟨witness_inv_position .encrypt .expand 0 rfl _, _, rfl⟩

theorem witness_NoStepFaults :
    (withLine (engineAt .encrypt .expand 0 blockP) (drive 0b000)).Inv ∧
    ∀ l ∈ (withLine (engineAt .encrypt .expand 0 blockP) (drive 0b000)).lines, l.drives = true := by
  refine ⟨witness_inv_position .encrypt .expand 0 rfl _, fun l hl => ?_⟩
  obtain rfl := List.mem_singleton.1 hl
  rfl

theorem witness_EncryptionEndsWithItsResult :
    (withLine State.reset (.drive 0b010 (.literal keyK) (.literal blockP))).phase = .idle ∧
    (withLine State.reset (.drive 0b010 (.literal keyK) (.literal blockP))).lines
      = .drive 0b010#3 (.literal keyK) (.literal blockP) :: [] ∧ (∀ l ∈ ([] : List HostLine), l.quiet = true) :=
  ⟨rfl, rfl, by simp⟩

theorem witness_DecryptionEndsWithItsResult :
    (withLine State.reset (.drive 0b011 (.literal keyK) (.literal blockC))).phase = .idle ∧
    (withLine State.reset (.drive 0b011 (.literal keyK) (.literal blockC))).lines
      = .drive 0b011#3 (.literal keyK) (.literal blockC) :: [] ∧ (∀ l ∈ ([] : List HostLine), l.quiet = true) :=
  ⟨rfl, rfl, by simp⟩

theorem witness_RoundTripLineGivesTheBlockBack :
    (withLine State.reset (.rtrip (.literal keyK) (.literal blockP))).phase = .idle ∧
    (withLine State.reset (.rtrip (.literal keyK) (.literal blockP))).lines = [.rtrip (.literal keyK) (.literal blockP)] :=
  ⟨rfl, rfl⟩

/-- The lines that are left while `RTRIP key, block` is worked off. -/
def InRoundTrip (key block : Block) (s : State) : Prop :=
  s.lines = [.rtrip (.literal key) (.literal block)] ∨ s.lines = [.wait, .drive decPins (.literal key) .out, .wait] ∨
  s.lines = [.wait] ∨ s.lines = []

theorem InRoundTrip.step {key block : Block} {s t : State} (h : InRoundTrip key block s) (hs : step s = .next t) :
    InRoundTrip key block t := by
  have hl := step_lines hs
  rcases h with h | h | h | h <;> rw [h] at hl <;> cases hd : s.done <;> simp [hd, present] at hl <;>
    simp [InRoundTrip, hl]

theorem InRoundTrip.outIsLegal {key block : Block} {s : State} (h : InRoundTrip key block s) : OutIsLegal s := by
  intro pins k b rest hp ho
  cases hd : s.done with
  | true => rfl
  | false =>
    rcases h with h | h | h | h <;> simp only [h, hd, present, idlePins] at hp <;> cases hp <;>
      simp at ho

/-- Every run of a program `RTRIP` with written operands presents `OUT` only where it is legal; and a state in which it does. -/
theorem witness_UnspecifiedRegistersAreNotRead :
    (∀ (n m : Nat) (u : State), m < n →
      Host.Core.run Sys2Proof.core m ({ State.reset with lines := [.rtrip (.literal keyK) (.literal blockP)] } : State) = .next u →
      OutIsLegal u) ∧
    (∃ t : State, Host.Core.run Sys2Proof.core 1
      ({ State.reset with lines := [.rtrip (.literal keyK) (.literal blockP)] } : State) = .next t) ∧
    present engineDone.done [.wait, .drive decPins (.literal keyK) .out, .wait]
      = (.pins decPins (.literal keyK) .out, [.wait]) ∧ engineDone.done = true :=
  ⟨fun _ _ _ _ h => (run_invariant (P := InRoundTrip keyK blockP) (fun _ _ => InRoundTrip.step) (.inl rfl) h).outIsLegal,
    ⟨_, rfl⟩, rfl, rfl⟩

/-! ## A run from reset reaches every phase -/

/-- A state of a run from reset, with no line left. -/
def Reached (t : State) : Prop :=
  t.lines = [] ∧ ∃ (lines : List HostLine) (n : Nat),
    Host.Core.run Sys2Proof.core n ({ State.reset with lines := lines } : State) = .next t

/-- The pending micro-operation is performed, whatever the number of its stalls. -/
theorem Reached.perform {s u : State} {i : Instr} (h : Reached s) (hp : pendingMicroOp s.dir s.phase = some i)
    (hx : exec i { s with freeIndex := s.freeIndex + s.stallsLeft + 1, stallsLeft := 0 } = .next u) (hl : u.lines = []) :
    Reached u.arm := by
  obtain ⟨hs, lines, n, hr⟩ := h
  refine ⟨hl, lines, n + (s.stallsLeft + 1), ?_⟩
  rw [run_add hr, run_of_pending hp hs, hx]
  rfl

/-- A main round of encryption that is not the last. -/
theorem Reached.encRound {s : State} (h : Reached s) (hd : s.dir = .encrypt) (hp : s.phase = .main) (n : Nat)
    (h1 : 1 ≤ n) (h9 : n ≤ 9) (hr : s.rnd.val = n) :
    ∃ t : State, Reached t ∧ t.dir = .encrypt ∧ t.phase = (if n = 9 then .final else .main) ∧ t.rnd.val = n + 1 := by
  have hlt : (1 : Fin 11) ≤ s.rnd ∧ s.rnd ≤ 9 := by rw [Fin.le_def, Fin.le_def]; simp [hr, h1, h9]
  refine ⟨_, h.perform (i := .encRound) (u := State.writeRound { s with freeIndex := s.freeIndex + s.stallsLeft + 1, stallsLeft := 0 }
    (encRoundFn s.st (rKey s.w s.rnd)) (if s.rnd = 9 then .final else .main) (s.rnd + 1)) ?_ ?_ h.1, hd, ?_, ?_⟩
  · rw [hd, hp]; rfl
  · simp only [exec, execEncRound]; rw [if_pos hlt]
  · have e : (s.rnd = 9) ↔ n = 9 := by rw [← hr, Fin.ext_iff]; rfl
    simp only [State.arm_phase, State.writeRound_phase, e]
  · simp only [State.arm_rnd, State.writeRound_rnd]
    rw [Fin.val_add_one_of_lt (by rw [Fin.lt_def]; simp [Fin.last, hr]; omega), hr]

theorem reached_init : ∃ t : State, Reached t ∧ t.phase = .init ∧ t.dir = .encrypt ∧ t.rnd = 0 := by
  have h : Reached ((({ State.reset with lines := [drive 0b010] } : State).consume []).accept .encrypt 0 0).arm :=
    ⟨rfl, [drive 0b010], 1, rfl⟩
  exact ⟨_, h.perform (i := .expand .encrypt) rfl rfl rfl, rfl, rfl, rfl⟩

theorem reached_main : ∃ t : State, Reached t ∧ t.phase = .main ∧ t.dir = .encrypt ∧ t.rnd.val = 1 := by
  obtain ⟨s, h, hp, hd, hr⟩ := reached_init
  refine ⟨_, h.perform (i := .encInit) (u := State.writeRound { s with freeIndex := s.freeIndex + s.stallsLeft + 1, stallsLeft := 0 }
    (addRoundKey s.st (rKey s.w s.rnd)) .main 1) ?_ ?_ h.1, rfl, hd, rfl⟩
  · rw [hd, hp]; rfl
  · simp only [exec, execEncInit]; rw [if_pos hr]

theorem reached_main_round (n : Nat) (h1 : 1 ≤ n) (h9 : n ≤ 9) :
    ∃ t : State, Reached t ∧ t.dir = .encrypt ∧ t.phase = .main ∧ t.rnd.val = n := by
  induction n with
  | zero => omega
  | succ n ih =>
    by_cases h0 : n = 0
    · obtain ⟨t, h, hp, hd, hr⟩ := reached_main
      exact ⟨t, h, hd, hp, by rw [hr, h0]⟩
    · obtain ⟨s, h, hd, hp, hr⟩ := ih (by omega) (by omega)
      obtain ⟨t, ht, hdt, hpt, hrt⟩ := h.encRound hd hp n (by omega) (by omega) hr
      exact ⟨t, ht, hdt, by rw [hpt, if_neg (by omega)], hrt⟩

/-- The premises of the clauses of rule R34 are met in runs from reset: `INIT`, `MAIN` at both ends of its range, `FINAL`,
and `DONE = 1`. -/
theorem witness_ReachableStatesMeetRule34 :
    (∃ t : State, Reached t ∧ t.phase = .init) ∧ (∃ t : State, Reached t ∧ t.phase = .main ∧ t.rnd.val = 1) ∧
    (∃ t : State, Reached t ∧ t.phase = .main ∧ t.rnd.val = 9) ∧ (∃ t : State, Reached t ∧ t.phase = .final) ∧
    ∃ t : State, Reached t ∧ t.done = true := by
  obtain ⟨t0, h0, hp0, -, -⟩ := reached_init
  obtain ⟨t1, h1, hd1, hp1, hr1⟩ := reached_main_round 1 (by omega) (by omega)
  obtain ⟨t9, h9, hd9, hp9, hr9⟩ := reached_main_round 9 (by omega) (by omega)
  obtain ⟨tf, hf, hdf, hpf, hrf⟩ := h9.encRound hd9 hp9 9 (by omega) (by omega) hr9
  rw [if_pos rfl] at hpf
  have hr : tf.rnd = 10 := Fin.ext hrf
  refine ⟨⟨t0, h0, hp0⟩, ⟨t1, h1, hp1, hr1⟩, ⟨t9, h9, hp9, hr9⟩, ⟨tf, hf, hpf⟩, _, hf.perform (i := .encFinal)
    (u := State.finish { tf with freeIndex := tf.freeIndex + tf.stallsLeft + 1, stallsLeft := 0 }
      (encFinalFn tf.st (rKey tf.w tf.rnd))) ?_ ?_ hf.1, rfl⟩
  · rw [hdf, hpf]; rfl
  · simp only [exec, execEncFinal]; rw [if_pos hr]

end Sys2Proof.Tests
end

section
/-! PROOFS. What an instruction does to the state, as a relation with one constructor for each kind of effect; what the
proofs on the state's registers (`10_state.md`) split on. -/

namespace Sys2Proof.Machine

/-- What a primitive returns is a matter of its operands alone (`exec_primitive`, for all states at once). -/
theorem exec_primitive_uniform {i : Instr} (h : isPrimitive i = true) : ∃ r, ∀ s, exec i s = .next (s.deliver r) := by
  cases i with
  | kExpand key => simp only [exec, execKExpand]; cases checkBytes key <;> exact ⟨_, fun _ => rfl⟩
  | load b => simp only [exec, execLoad]; cases checkBytes b <;> exact ⟨_, fun _ => rfl⟩
  | encryptBlock p key => simp only [exec, execEncryptBlock]; cases checkOperands p key <;> exact ⟨_, fun _ => rfl⟩
  | decryptBlock c key => simp only [exec, execDecryptBlock]; cases checkOperands c key <;> exact ⟨_, fun _ => rfl⟩
  | rst | enc | dec | nop | expand | encInit | decInit | encRound | decRound | encFinal | decFinal =>
    exact absurd h Bool.false_ne_true
  | _ => exact ⟨_, fun _ => rfl⟩

/-- `Effect s i t`: performed in `s`, the instruction `i` completes with the next state `t` (`exec_eq_next_iff`). -/
inductive Effect (s : State) : Instr → State → Prop
  | nop (d : Bool) : Effect s (.nop d) s
  | encIgnored (hb : s.phase ≠ .idle) (k b : Block) : Effect s (.enc k b) s
  | decIgnored (hb : s.phase ≠ .idle) (k b : Block) : Effect s (.dec k b) s
  | encAccepted (hi : s.phase = .idle) (k b : Block) : Effect s (.enc k b) (s.accept .encrypt k b)
  | decAccepted (hi : s.phase = .idle) (k b : Block) : Effect s (.dec k b) (s.accept .decrypt k b)
  | rst (st d : Bool) : Effect s (.rst st d) s.resetRegs
  | expand (d : Direction) : Effect s (.expand d) (s.writeSchedule (kExpand s.key))
  | encInit (hr : s.rnd = 0) : Effect s .encInit (s.writeRound (addRoundKey s.st (rKey s.w s.rnd)) .main 1)
  | decInit (hr : s.rnd = 10) : Effect s .decInit (s.writeRound (addRoundKey s.st (rKey s.w s.rnd)) .main 9)
  | encRound (hr : 1 ≤ s.rnd ∧ s.rnd ≤ 9) : Effect s .encRound
      (s.writeRound (encRoundFn s.st (rKey s.w s.rnd)) (if s.rnd = 9 then .final else .main) (s.rnd + 1))
  | decRound (hr : 1 ≤ s.rnd ∧ s.rnd ≤ 9) : Effect s .decRound
      (s.writeRound (decRoundFn s.st (rKey s.w s.rnd)) (if s.rnd = 1 then .final else .main) (s.rnd - 1))
  | encFinal (hr : s.rnd = 10) : Effect s .encFinal (s.finish (encFinalFn s.st (rKey s.w s.rnd)))
  | decFinal (hr : s.rnd = 0) : Effect s .decFinal (s.finish (decFinalFn s.st (rKey s.w s.rnd)))
  | primitive {i : Instr} (hp : isPrimitive i = true) {r : Returned} (hr : ∀ u, exec i u = .next (u.deliver r)) :
      Effect s i (s.deliver r)

theorem Effect.exec_eq {s t : State} {i : Instr} (h : Effect s i t) : exec i s = .next t := by
  cases h with
  | nop | rst | expand => rfl
  | encIgnored hb | decIgnored hb => exact if_pos ((busy_eq_true_iff s).2 hb)
  | encAccepted hi | decAccepted hi => exact if_neg (by simp [busy, hi])
  | encInit hr | decInit hr | encRound hr | decRound hr | encFinal hr | decFinal hr => exact if_pos hr
  | primitive _ hr => exact hr s

theorem effect_of_exec {s t : State} {i : Instr} (h : exec i s = .next t) : Effect s i t := by
  obtain ⟨rfl, ⟨d, rfl⟩ | ⟨hb, k, b, rfl | rfl⟩⟩ | ⟨hi, d, k, b, rfl, rfl⟩ | ⟨rfl, st, d, rfl⟩ | ⟨rfl, d, rfl⟩ |
    ⟨rfl, hr, rfl⟩ | ⟨rfl, hr, rfl⟩ | ⟨rfl, hr, rfl⟩ | ⟨rfl, hr, rfl⟩ | ⟨rfl, hr, rfl⟩ | ⟨rfl, hr, rfl⟩ | ⟨hp, -⟩ :=
    exec_next_cases h
  · exact .nop d
  · exact .encIgnored hb k b
  · exact .decIgnored hb k b
  · cases d with
    | encrypt => exact .encAccepted hi k b
    | decrypt => exact .decAccepted hi k b
  · exact .rst st d
  · exact .expand d
  · exact .encInit hr
  · exact .decInit hr
  · exact .encRound hr
  · exact .decRound hr
  · exact .encFinal hr
  · exact .decFinal hr
  · obtain ⟨r, hr⟩ := exec_primitive_uniform hp
    obtain rfl := Host.Outcome.next.inj ((hr s).symm.trans h)
    exact .primitive hp hr

theorem exec_eq_next_iff {s t : State} {i : Instr} : exec i s = .next t ↔ Effect s i t :=
  ⟨effect_of_exec, Effect.exec_eq⟩

/-! ## At which control position an instruction is performed -/

/-- The sequencer performs a micro-operation only at its own control position (rule R84); a command or a primitive is
performed anywhere. -/
def Selected (s : State) (i : Instr) : Prop :=
  match i with
  | .expand _ => s.phase = .expand
  | .encInit => s.phase = .init ∧ s.dir = .encrypt
  | .decInit => s.phase = .init ∧ s.dir = .decrypt
  | .encRound => s.phase = .main ∧ s.dir = .encrypt
  | .decRound => s.phase = .main ∧ s.dir = .decrypt
  | .encFinal => s.phase = .final ∧ s.dir = .encrypt
  | .decFinal => s.phase = .final ∧ s.dir = .decrypt
  | _ => True

theorem selected_of_pending {s : State} {i : Instr} (h : pendingMicroOp s.dir s.phase = some i) : Selected s i := by
  cases hd : s.dir <;> cases hp : s.phase <;> rw [hd, hp] at h <;> cases h <;> simp [Selected, hd, hp]

theorem selected_decodeCommand (s : State) (w : CommandWord) : Selected s (decodeCommand w) := by
  simp only [decodeCommand]
  split
  · trivial
  · split
    · split <;> trivial
    · trivial

theorem selected_of_isPrimitive {i : Instr} (s : State) (h : isPrimitive i = true) : Selected s i := by
  cases i with
  | expand | encInit | decInit | encRound | decRound | encFinal | decFinal => exact absurd h Bool.false_ne_true
  | _ => trivial

/-- Everything a step can do (`step_next_cases`): an instruction was performed where it is selected, with or without a new
count of stalls, or the pending micro-operation stalled. -/
theorem step_effect {s t : State} (h : step s = .next t) :
    (∃ i rest u, Selected (s.consume rest) i ∧ Effect (s.consume rest) i u ∧ (t = u.arm ∨ t = u)) ∨
    ∃ rest, t = (s.consume rest).stall := by
  obtain ⟨w, rest, u, -, hu, rfl⟩ | ⟨i, rest, u, -, -, hp, hu, rfl⟩ | ⟨rest, -, -, rfl⟩ | ⟨p, i, rest, hp, hu⟩ :=
    step_next_cases h
  · exact .inl ⟨_, rest, u, selected_decodeCommand _ w, effect_of_exec hu, .inl rfl⟩
  · exact .inl ⟨i, rest, u, selected_of_pending hp, effect_of_exec hu, .inl rfl⟩
  · exact .inr ⟨rest, rfl⟩
  · exact .inl ⟨i, rest, t, selected_of_isPrimitive _ (isPrimitive_of_decodePrimitive hp), effect_of_exec hu, .inr rfl⟩

end Sys2Proof.Machine
end

section
/-! PROOFS. Rules R21 to R36 of `10_state.md`: who writes which register, the stops, the cache. -/

namespace Sys2Proof.Machine

/-- Settles O41: each effect of `exec_eq_next_iff` leaves `DONE` as its rule says; a primitive is none of the
instructions named. -/
theorem doneHasTheWritersOfItsRule : Obligations.DoneHasTheWritersOfItsRule := by
  intro i s t h
  cases effect_of_exec h with
  | encIgnored hb | decIgnored hb => exact (if_neg hb).symm
  | encAccepted hi | decAccepted hi => exact (if_pos hi).symm
  | primitive hp =>
    split
    case h_6 => rfl
    all_goals exact absurd hp Bool.false_ne_true
  | _ => rfl

/-- Settles O42: by the effects: of all named operations only `State.accept` and `State.resetRegs` write `KEY` and
`DIR`. -/
theorem keyAndDirAreWrittenByAcceptance : Obligations.KeyAndDirAreWrittenByAcceptance := by
  intro i s t h
  cases effect_of_exec h with
  | encIgnored hb | decIgnored hb => exact ⟨(if_neg hb).symm, (if_neg hb).symm⟩
  | encAccepted hi | decAccepted hi => exact ⟨(if_pos hi).symm, (if_pos hi).symm⟩
  | rst => trivial
  | primitive hp =>
    split
    case h_4 => exact ⟨rfl, rfl⟩
    all_goals exact absurd hp Bool.false_ne_true
  | _ => exact ⟨rfl, rfl⟩

/-- Settles O43: by the effects: of all named operations only `State.writeSchedule` and `State.resetRegs` write `W`. -/
theorem scheduleIsWrittenByExpand : Obligations.ScheduleIsWrittenByExpand := by
  intro i s t h
  cases effect_of_exec h with
  | rst => trivial
  | primitive hp =>
    split
    case h_3 => rfl
    all_goals exact absurd hp Bool.false_ne_true
  | _ => rfl

/-- Settles O44: by the effects: an instruction that is none of the writers leaves `ST` as it was. -/
theorem stateRegisterHasTheWritersOfItsRule : Obligations.StateRegisterHasTheWritersOfItsRule := by
  intro i s t h hst
  cases effect_of_exec h with
  | encInit | decInit | encRound | decRound | encFinal | decFinal => simp
  | rst st d => exact .inr (.inl ⟨st, d, rfl⟩)
  | encAccepted hi k b => exact .inr (.inr ⟨hi, k, b, .inl rfl, rfl⟩)
  | decAccepted hi k b => exact .inr (.inr ⟨hi, k, b, .inr rfl, rfl⟩)
  | nop | encIgnored | decIgnored | expand | primitive => exact absurd rfl hst

/-- Settles O40: each of the six tests of `RND` fails. -/
theorem otherControlPositionsStop : Obligations.OtherControlPositionsStop := by
  intro s
  refine ⟨fun h => ⟨if_neg h, if_neg h⟩, fun h => ⟨if_neg h, if_neg h⟩, fun h => ?_⟩
  have hr : ¬ (1 ≤ s.rnd ∧ s.rnd ≤ 9) := by rcases h with h | h <;> rw [h] <;> decide
  exact ⟨if_neg hr, if_neg hr⟩

/-- Settles O49: every effect is the same effect with another cache, and only `RST` and `EXPAND` write the cache. -/
theorem cacheIsInvisibleInValues : Obligations.CacheIsInvisibleInValues := by
  intro i s t c h
  cases effect_of_exec h with
  | rst st d => exact ⟨none, rfl⟩
  | expand d => exact ⟨if Config.ksCache then some s.key else none, rfl⟩
  | nop d => exact ⟨c, rfl⟩
  | encIgnored hb | decIgnored hb => exact ⟨c, if_pos ((busy_eq_true_iff s).2 hb)⟩
  | encAccepted hi | decAccepted hi => exact ⟨c, if_neg (by simp [busy, hi])⟩
  | encInit hr | decInit hr | encRound hr | decRound hr | encFinal hr | decFinal hr => exact ⟨c, if_pos hr⟩
  | primitive _ hr => exact ⟨c, hr _⟩

end Sys2Proof.Machine
end

section
/-! PROOFS. The invariant of rule R34 of `10_state.md`: each named operation keeps it, so every step does, so every reachable
state meets it. -/

namespace Sys2Proof.Machine

/-! ## What the invariant says at a position -/

section
variable {s : State} (hi : s.Inv)
include hi

theorem State.Inv.done_eq_false (hp : s.phase ≠ .idle) : s.done = false :=
  Bool.eq_false_iff.2 fun hd => hp (hi.doneIdle hd)

theorem State.Inv.rnd_of_expand (hp : s.phase = .expand) : s.rnd = firstRound s.dir := by
  have h := hi.position
  rwa [PositionOk, hp] at h

theorem State.Inv.rnd_of_init (hp : s.phase = .init) : s.rnd = firstRound s.dir := by
  have h := hi.position
  rwa [PositionOk, hp] at h

theorem State.Inv.rnd_of_main (hp : s.phase = .main) : 1 ≤ s.rnd ∧ s.rnd ≤ 9 := by
  have h := hi.position
  rwa [PositionOk, hp] at h

theorem State.Inv.rnd_of_final (hp : s.phase = .final) : s.rnd = if s.dir = .encrypt then 10 else 0 := by
  have h := hi.position
  rw [PositionOk, hp] at h
  cases hd : s.dir <;> simpa [hd] using h

/-! ## The named operations keep it -/

theorem State.Inv.consume (rest : List HostLine) : (s.consume rest).Inv := hi.of_registers rfl rfl rfl rfl rfl rfl rfl

theorem State.Inv.stall : s.stall.Inv := hi.of_registers rfl rfl rfl rfl rfl rfl rfl

theorem State.Inv.arm : s.arm.Inv := hi.of_registers rfl rfl rfl rfl rfl rfl rfl

theorem State.Inv.deliver (r : Returned) : (s.deliver r).Inv := hi.of_registers rfl rfl rfl rfl rfl rfl rfl

theorem State.Inv.accept (d : Direction) (k b : Block) : (s.accept d k b).Inv where
  schedule := by simp [ScheduleOk]
  doneIdle := by simp
  position := rfl
  cache := hi.cache

theorem State.Inv.writeSchedule (hp : s.phase = .expand) : (s.writeSchedule (kExpand s.key)).Inv where
  schedule := fun _ => rfl
  doneIdle := by simp [hi.done_eq_false (by simp [hp])]
  position := hi.rnd_of_expand hp
  cache := by
    intro k hk
    rw [State.writeSchedule_ksCache, Option.ite_none_right_eq_some] at hk
    rw [State.writeSchedule_w, Option.some.inj hk.2]

/-- An initial or main round keeps the invariant when it goes to a control position of rule R34 (d): the schedule is in use
before it, so `W` is that of `KEY`. -/
theorem State.Inv.writeRound (hp : s.phase = .init ∨ s.phase = .main) {x : CipherState} {p : Phase} {r : Fin 11}
    (hpos : PositionOk (s.writeRound x p r)) : (s.writeRound x p r).Inv where
  schedule := fun _ => hi.schedule (by tauto)
  doneIdle := by
    have hb : s.phase ≠ .idle := by rcases hp with hp | hp <;> simp [hp]
    simp [hi.done_eq_false hb]
  position := hpos
  cache := hi.cache

theorem State.Inv.finish (hp : s.phase = .final) (x : CipherState) : (s.finish x).Inv where
  schedule := fun _ => hi.schedule (.inr (.inr (.inl hp)))
  doneIdle := fun _ => rfl
  position := trivial
  cache := hi.cache

end

theorem State.inv_resetRegs (s : State) : s.resetRegs.Inv where
  schedule := by simp [ScheduleOk]
  doneIdle := by simp
  position := trivial
  cache := by simp [CacheOk]

/-! ## The main rounds go to a control position of rule R34 (d) -/

theorem positionOk_encRound {s : State} (hd : s.dir = .encrypt) (hr : 1 ≤ s.rnd ∧ s.rnd ≤ 9) (x : CipherState) :
    PositionOk (s.writeRound x (if s.rnd = 9 then .final else .main) (s.rnd + 1)) := by
  have count : ∀ r : Fin 11, 1 ≤ r ∧ r ≤ 9 → r ≠ 9 → 1 ≤ r + 1 ∧ r + 1 ≤ 9 := by decide
  by_cases h9 : s.rnd = 9
  · simp [PositionOk, h9, hd]
  · simpa [PositionOk, h9] using count s.rnd hr h9

theorem positionOk_decRound {s : State} (hd : s.dir = .decrypt) (hr : 1 ≤ s.rnd ∧ s.rnd ≤ 9) (x : CipherState) :
    PositionOk (s.writeRound x (if s.rnd = 1 then .final else .main) (s.rnd - 1)) := by
  have count : ∀ r : Fin 11, 1 ≤ r ∧ r ≤ 9 → r ≠ 1 → 1 ≤ r - 1 ∧ r - 1 ≤ 9 := by decide
  by_cases h1 : s.rnd = 1
  · simp [PositionOk, h1, hd]
  · simpa [PositionOk, h1] using count s.rnd hr h1

/-! ## Instructions, steps and runs keep it -/

theorem Effect.keeps_inv {s t : State} {i : Instr} (h : Effect s i t) (hsel : Selected s i) (hi : s.Inv) : t.Inv := by
  cases h with
  | nop | encIgnored | decIgnored => exact hi
  | encAccepted _ k b => exact hi.accept .encrypt k b
  | decAccepted _ k b => exact hi.accept .decrypt k b
  | rst => exact s.inv_resetRegs
  | expand => exact hi.writeSchedule hsel
  | encInit | decInit => exact hi.writeRound (.inl hsel.1) (by simp [PositionOk])
  | encRound hr => exact hi.writeRound (.inr hsel.1) (positionOk_encRound hsel.2 hr _)
  | decRound hr => exact hi.writeRound (.inr hsel.1) (positionOk_decRound hsel.2 hr _)
  | encFinal | decFinal => exact hi.finish hsel.1 _
  | primitive => exact hi.deliver _

/-- Settles O54: an instruction performed where it is selected keeps the invariant, and the host's line and the stalls
are not in it. -/
theorem everyStepKeepsTheInvariant : Obligations.EveryStepKeepsTheInvariant := by
  intro s t hi h
  obtain ⟨i, rest, u, hsel, he, rfl | rfl⟩ | ⟨rest, rfl⟩ := step_effect h
  · exact (he.keeps_inv hsel (hi.consume rest)).arm
  · exact he.keeps_inv hsel (hi.consume rest)
  · exact (hi.consume rest).stall

/-- Settles O53: the engine is idle, without a result and with an empty cache. -/
theorem resetMeetsTheInvariant : Obligations.ResetMeetsTheInvariant := fun lines =>
  { schedule := by simp [ScheduleOk, State.reset]
    doneIdle := fun _ => rfl
    position := trivial
    cache := fun _ hk => nomatch hk }

/-- The first four words of a schedule are those of its key (rule R154). -/
theorem kExpand_getElem_key (key : Block) (a : Fin 4) : (kExpand key)[a.val] = keyWord key a := by
  unfold kExpand
  exact scheduleWords_key key 40 (Nat.le_refl 40) a

theorem firstRound_eq_ite (d : Direction) : firstRound d = if d = .encrypt then 0 else 10 := by cases d <;> rfl

/-- Settles O55: the invariant holds at reset and every step keeps it. -/
theorem reachableStatesMeetRule34 : Obligations.ReachableStatesMeetRule34 := by
  intro lines n t h
  have hi : t.Inv := run_invariant everyStepKeepsTheInvariant (resetMeetsTheInvariant lines) h
  refine ⟨fun hp => ?_, hi.doneIdle, hi.rnd_of_main, fun hp => ?_, hi.rnd_of_final⟩
  · have hw : t.w = kExpand t.key := hi.schedule hp
    exact ⟨hw, fun a => by rw [hw, kExpand_getElem_key]⟩
  · rw [hi.rnd_of_init hp, firstRound_eq_ite]

/-! ## The state after reset and the output ports -/

/-- Settles O35: the values stand in the definition of the reset state. -/
theorem resetStateIsIdle : Obligations.ResetStateIsIdle := ⟨rfl, rfl, rfl, rfl, rfl⟩

/-- Settles O50: `block_out` is `UNLOAD` of `ST` while `DONE = 1`, and `DONE = 1` implies `IDLE` under the invariant. -/
theorem outputPortsShowTheirRegisters : Obligations.OutputPortsShowTheirRegisters := by
  intro s
  refine ⟨rfl, busy_eq_true_iff s, fun hd n => ?_, fun hi hd => (busy_eq_false_iff s).2 (hi.doneIdle hd)⟩
  have hb : (outputPorts s).blockOut = unloadState s.st := if_pos hd
  rw [hb, blockByte_unloadState]
  rfl

end Sys2Proof.Machine
end

section
/-! PROOFS. Rule R38 of `10_state.md`: two engines that differ only in registers which reset left unspecified, and which no
accepted command has written yet, go on answering alike. -/

namespace Sys2Proof.Machine

/-- The same engine with other contents of the data registers. -/
def State.withRegs (s : State) (r : DataRegs) : State := { s with dir := r.dir, key := r.key, st := r.st, w := r.w }

@[simp] theorem State.withRegs_dataRegs (s : State) : s.withRegs s.dataRegs = s := rfl

/-- The data registers `r` agree with those of `s` wherever they are written since reset: `DIR`, `KEY` and `ST` from the
acceptance of a command on, `W` from `EXPAND` on, and `ST` while it is a result. -/
structure Agrees (s : State) (r : DataRegs) : Prop where
  operands : s.phase ≠ .idle → r.dir = s.dir ∧ r.key = s.key ∧ r.st = s.st
  schedule : s.phase ≠ .idle → s.phase ≠ .expand → r.w = s.w
  result : s.done = true → r.st = s.st

theorem agrees_dataRegs (s : State) : Agrees s s.dataRegs := ⟨fun _ => ⟨rfl, rfl, rfl⟩, fun _ _ => rfl, fun _ => rfl⟩

/-- While the schedule is in use, all four registers agree. -/
theorem Agrees.eq_dataRegs {s : State} {r : DataRegs} (h : Agrees s r) (hi : s.phase ≠ .idle) (he : s.phase ≠ .expand) :
    r = s.dataRegs := by
  obtain ⟨hd, hk, hst⟩ := h.operands hi
  have hw := h.schedule hi he
  cases r
  simp only at hd hk hst hw
  rw [hd, hk, hst, hw, State.dataRegs]

/-- The answer is the next state `t`, but for registers that are not written since reset. -/
def AnswersLike (y : Result) (t : State) : Prop := ∃ r, y = .next (t.withRegs r) ∧ Agrees t r

theorem AnswersLike.of_eq {y : Result} {t : State} (h : y = .next t) : AnswersLike y t := ⟨t.dataRegs, h, agrees_dataRegs t⟩

/-- Which stalls are pending is a matter of registers that agree. -/
theorem Agrees.pendingStalls {s : State} {r : DataRegs} (h : Agrees s r) :
    (s.withRegs r).pendingStalls = s.pendingStalls := by
  by_cases hi : s.phase = .idle
  · simp only [State.pendingStalls, State.withRegs, hi]
  · obtain ⟨hd, hk, -⟩ := h.operands hi
    simp only [State.pendingStalls, State.withRegs, hd, hk]

theorem AnswersLike.armNext {y : Result} {u : State} (h : AnswersLike y u) : AnswersLike (armNext y) u.arm := by
  obtain ⟨r, rfl, ha⟩ := h
  refine ⟨r, ?_, ha.operands, ha.schedule, ha.result⟩
  simp only [Machine.armNext, State.arm, ha.pendingStalls]
  rfl

/-! ## Instructions -/

/-- Performed where it is selected, an instruction reads no register that is not written since reset. -/
theorem Effect.answersLike {s t : State} {i : Instr} {r : DataRegs} (h : Effect s i t) (hsel : Selected s i)
    (ha : Agrees s r) : AnswersLike (exec i (s.withRegs r)) t := by
  have rounds (hi : s.phase ≠ .idle) (he : s.phase ≠ .expand) : AnswersLike (exec i (s.withRegs r)) t := by
    rw [ha.eq_dataRegs hi he, State.withRegs_dataRegs]
    exact .of_eq h.exec_eq
  cases h with
  | nop d => exact ⟨r, rfl, ha⟩
  | encIgnored hb k b => exact ⟨r, (Effect.encIgnored (s := s.withRegs r) hb k b).exec_eq, ha⟩
  | decIgnored hb k b => exact ⟨r, (Effect.decIgnored (s := s.withRegs r) hb k b).exec_eq, ha⟩
  | encAccepted hi k b =>
    exact ⟨⟨.encrypt, k, loadBlock b, r.w⟩, (Effect.encAccepted (s := s.withRegs r) hi k b).exec_eq,
      fun _ => ⟨rfl, rfl, rfl⟩, fun _ he => absurd rfl he, fun _ => rfl⟩
  | decAccepted hi k b =>
    exact ⟨⟨.decrypt, k, loadBlock b, r.w⟩, (Effect.decAccepted (s := s.withRegs r) hi k b).exec_eq,
      fun _ => ⟨rfl, rfl, rfl⟩, fun _ he => absurd rfl he, fun _ => rfl⟩
  | rst =>
    exact ⟨Config.afterReset s.freeIndex r, rfl, fun hi => absurd rfl hi, fun hi => absurd rfl hi, fun hd => nomatch hd⟩
  | expand d =>
    have hp : s.phase = .expand := hsel
    obtain ⟨hd, hk, hst⟩ := ha.operands (by simp [hp])
    refine .of_eq ?_
    simp only [exec, execExpand, State.withRegs, State.writeSchedule, hd, hk, hst]
  | encInit | decInit | encRound | decRound | encFinal | decFinal =>
    exact rounds (by simp [hsel.1]) (by simp [hsel.1])
  | primitive _ hr => exact ⟨r, hr _, ha.operands, ha.schedule, ha.result⟩

theorem exec_answersLike {s t : State} {i : Instr} {r : DataRegs} (h : exec i s = .next t) (hsel : Selected s i)
    (ha : Agrees s r) : AnswersLike (exec i (s.withRegs r)) t := (effect_of_exec h).answersLike hsel ha

/-! ## Steps -/

theorem Agrees.consume {s : State} {r : DataRegs} (h : Agrees s r) (rest : List HostLine) : Agrees (s.consume rest) r :=
  ⟨h.operands, h.schedule, h.result⟩

/-- `OUT` is the result where it is legal (rule R89), so the operands on the ports are the same. -/
theorem Agrees.operandValue {s : State} {r : DataRegs} (h : Agrees s r) {o : Operand} (ho : o = .out → s.done = true) :
    operandValue (s.withRegs r) o = operandValue s o := by
  cases o with
  | literal b => rfl
  | out =>
    have hd := ho rfl
    have hst := h.result hd
    simp [Machine.operandValue, blockOut, State.withRegs, hd, hst]

theorem engineStep_answersLike {s t : State} {r : DataRegs} (ha : Agrees s r) (hi : s.phase ≠ .idle)
    (h : engineStep s = .next t) : AnswersLike (engineStep (s.withRegs r)) t := by
  by_cases hs : s.stallsLeft = 0
  · obtain ⟨i, hu⟩ := Option.ne_none_iff_exists'.1 (mt pendingMicroOp_eq_none.1 hi : pendingMicroOp s.dir s.phase ≠ none)
    have hu' : pendingMicroOp (s.withRegs r).dir (s.withRegs r).phase = some i := by
      rw [← hu, ← (ha.operands hi).1]; rfl
    rw [engineStep_of_pending hs hu] at h
    rw [engineStep_of_pending (s := s.withRegs r) hs hu']
    obtain ⟨u, hx, rfl⟩ := armNext_eq_next.1 h
    exact (exec_answersLike hx (selected_of_pending hu) ha).armNext
  · rw [engineStep_of_stall hs] at h
    cases h
    exact ⟨r, engineStep_of_stall (s := s.withRegs r) hs, ha.operands, ha.schedule, ha.result⟩

/-- One step of two engines whose registers agree wherever they are written since reset. -/
theorem step_answersLike {s t : State} {r : DataRegs} (ha : Agrees s r) (hout : OutIsLegal s) (h : step s = .next t) :
    AnswersLike (step (s.withRegs r)) t := by
  rcases hp : present s.done s.lines with ⟨⟨pins, key, block⟩ | p, rest⟩
  · have hp' : present (s.withRegs r).done (s.withRegs r).lines = (.pins pins key block, rest) := hp
    have hac := ha.consume rest
    by_cases hc : pins.getLsbD 2 = true ∨ s.phase = .idle
    · have hw : presentedWord (s.withRegs r) pins key block = presentedWord s pins key block := by
        have legal := hout pins key block rest hp
        simp only [presentedWord, ha.operandValue fun h => legal (.inl h), ha.operandValue fun h => legal (.inr h)]
      rw [step_of_command hp hc] at h
      rw [step_of_command hp' hc, hw]
      obtain ⟨u, hx, rfl⟩ := armNext_eq_next.1 h
      exact (exec_answersLike hx (selected_decodeCommand _ _) hac).armNext
    · obtain ⟨hr, hi⟩ := not_or.1 hc
      rw [step_of_busy hp (by simpa using hr) hi] at h
      rw [step_of_busy hp' (by simpa using hr) hi]
      exact engineStep_answersLike hac hi h
  · have hp' : present (s.withRegs r).done (s.withRegs r).lines = (.call p, rest) := hp
    rw [step_of_call hp, callStep] at h
    rw [step_of_call hp', callStep]
    split at h
    · next i hdec =>
      exact exec_answersLike h (selected_of_isPrimitive _ (isPrimitive_of_decodePrimitive hdec)) (ha.consume rest)
    · cases h

/-! ## Runs -/

theorem run_answersLike {n : Nat} {s t : State} {r : DataRegs} (ha : Agrees s r)
    (hout : ∀ (m : Nat) (u : State), m < n → Host.Core.run Sys2Proof.core m s = .next u → OutIsLegal u)
    (h : Host.Core.run Sys2Proof.core n s = .next t) : AnswersLike (Host.Core.run Sys2Proof.core n (s.withRegs r)) t := by
  induction n generalizing s r with
  | zero => cases h; exact ⟨r, rfl, ha⟩
  | succ n ih =>
    obtain ⟨u, hu, hr⟩ := run_succ_eq_next h
    obtain ⟨r', hu', ha'⟩ := step_answersLike ha (hout 0 s n.succ_pos rfl) hu
    rw [run_succ_of_next hu']
    exact ih ha' (fun m v hm hv => hout (m + 1) v (Nat.succ_lt_succ hm) (by rw [run_succ_of_next hu]; exact hv)) hr

/-- Settles O60: at reset no register need agree, since the engine is idle without a result. -/
theorem unspecifiedRegistersAreNotRead : Obligations.UnspecifiedRegistersAreNotRead := by
  intro lines regs n t hout h
  have ha : Agrees { State.reset with lines := lines } regs :=
    ⟨fun hi => absurd rfl hi, fun hi => absurd rfl hi, fun hd => nomatch hd⟩
  obtain ⟨r, hr, har⟩ := run_answersLike ha hout h
  exact ⟨t.withRegs r, hr, rfl, rfl, rfl, rfl, fun hd => har.operandValue (o := .out) fun _ => hd⟩

end Sys2Proof.Machine
end

section
/-! PROOFS. Rules R60 and R62 of `20_memory.md`: an idling host leaves the engine as it is, and so the result it reads. -/

namespace Sys2Proof.Machine

/-- The pins `0b00x` are `NOP` (the table of rule R81). -/
theorem decodeCommand_of_nop {w : CommandWord} (h : w.pins &&& 0b110#3 = 0#3) :
    decodeCommand w = .nop (w.pins.getLsbD 0) := by
  have hrst : w.pins[2] = false := by simpa using congrArg (·.getLsbD 2) h
  have hstart : w.pins[1] = false := by simpa using congrArg (·.getLsbD 1) h
  simp [decodeCommand, hrst, hstart]

/-- While the engine is idle no micro-operation stalls. -/
theorem State.arm_of_idle {s : State} (hi : s.phase = .idle) : s.arm = { s with stallsLeft := 0 } := by
  simp only [State.arm, State.pendingStalls, hi]

/-- `NOP` on the ports of an idle engine: the line is used up, and no register changes (rule R206). -/
theorem step_of_nop {s : State} {pins : BitVec 3} {key block : Operand} {rest : List HostLine}
    (hp : present s.done s.lines = (.pins pins key block, rest)) (hn : pins &&& 0b110#3 = 0#3) (hi : s.phase = .idle) :
    step s = .next { s.consume rest with stallsLeft := 0 } := by
  have hdec : decodeCommand (presentedWord s pins key block) = .nop (pins.getLsbD 0) := by
    rw [decodeCommand_of_nop] <;> simp [presentedWord, hn]
  calc step s = armNext (exec (.nop (pins.getLsbD 0)) (s.consume rest)) := by rw [step_of_command hp (.inr hi), hdec]
    _ = .next (s.consume rest).arm := rfl
    _ = .next { s.consume rest with stallsLeft := 0 } := by rw [State.arm_of_idle (s := s.consume rest) hi]

/-- While `DONE = 1` the output ports are a matter of `ST`, `PHASE` and `DONE` alone. -/
theorem outputPorts_eq_of_registers {s t : State} (hd : s.done = true) (hst : t.st = s.st) (hphase : t.phase = s.phase)
    (hdone : t.done = s.done) : outputPorts t = outputPorts s := by
  simp [outputPorts, blockOut, busy, hd, hst, hphase, hdone]

/-- Settles O51: with no line left or with the line of a `NOP` the host presents `NOP`, and the ports show registers that
it does not change. -/
theorem resultStaysWhileTheHostIdles : Obligations.ResultStaysWhileTheHostIdles := by
  intro s pins k b rest hi hd hlines
  have hstep : step s = .next { s.consume rest with stallsLeft := 0 } := by
    obtain ⟨hl, rfl⟩ | ⟨hl, hn⟩ := hlines
    · have hp : present s.done s.lines = (idlePins, []) := by rw [hl]; rfl
      exact step_of_nop hp rfl hi
    · have hp : present s.done s.lines = (.pins pins k b, rest) := by rw [hl]; rfl
      exact step_of_nop hp hn hi
  refine ⟨hstep, fun t ht => ?_⟩
  obtain rfl := Host.Outcome.next.inj (hstep.symm.trans ht)
  exact outputPorts_eq_of_registers hd rfl rfl rfl

end Sys2Proof.Machine
end

section
/-! PROOFS. Rules R81 to R87 of `30_encoding.md`: the rows of the command word, and decoder and encoder as inverses of each
other. -/

namespace Sys2Proof

/-! ## Decoding an encoding -/

theorem decodeCommand_commandWord (rst start dir : Bool) (k b : Block) :
    decodeCommand (commandWord (pinBits rst start dir) k b) =
      if rst then .rst start dir else if start then (if dir then .dec k b else .enc k b) else .nop dir := by
  cases rst <;> cases start <;> cases dir <;> simp [decodeCommand, directionOfBit]

@[simp] theorem rconIndex_val (r : Fin 10) (f : Fin 10 → Instr) : rconIndex r.val f = .ok (f r) := dif_pos r.isLt

@[simp] theorem roundKeyIndex_val (r : Fin 11) (f : Fin 11 → Instr) : roundKeyIndex r.val f = .ok (f r) := dif_pos r.isLt

/-- Settles O3: by the format of each instruction; a command word reads its fields back, and an index of `RCON` or of a
round key is in its range by its type. -/
theorem decodeOfEncodeIsTheInstruction : Obligations.DecodeOfEncodeIsTheInstruction := by
  intro i
  cases i with
  | rst | enc | dec | nop => exact congrArg Except.ok (decodeCommand_commandWord ..)
  | expand d => cases d <;> rfl
  | xor ops => cases ops <;> rfl
  | rconW r => exact rconIndex_val r .rconW
  | kTransform w r => exact rconIndex_val r (.kTransform w)
  | rKey wd r => exact roundKeyIndex_val r (.rKey wd)
  | _ => rfl

/-! ## The rows of the command word -/

/-- The pins `0b1xx` are `RST` (the table of rule R81). -/
theorem decodeCommand_of_rst {w : CommandWord} (h : w.pins &&& 0b100#3 = 0b100#3) :
    decodeCommand w = .rst (w.pins.getLsbD 1) (w.pins.getLsbD 0) := by
  have hrst : w.pins[2] = true := by simpa using congrArg (·.getLsbD 2) h
  simp [decodeCommand, hrst]

/-- The pins `0b010` are `ENC` (the table of rule R81). -/
theorem decodeCommand_of_enc {w : CommandWord} (h : w.pins = 0b010#3) : decodeCommand w = .enc w.key w.block := by
  simp [decodeCommand, h, directionOfBit]

/-- The pins `0b011` are `DEC` (the table of rule R81). -/
theorem decodeCommand_of_dec {w : CommandWord} (h : w.pins = 0b011#3) : decodeCommand w = .dec w.key w.block := by
  simp [decodeCommand, h, directionOfBit]

theorem and_allOnes_pins (p : BitVec 3) : p &&& 0b111#3 = p := BitVec.and_allOnes

/-- Settles O2: each row's decoding is read off the pins; that the rows exclude each other and leave no pins out is a
matter of the eight values of the pins. -/
theorem commandWordsArePartitioned : Obligations.CommandWordsArePartitioned := by
  intro w
  have rows : ∀ p : BitVec 3, (commandRows.filter fun r => p &&& r.2 = r.1).length = 1 := by decide
  have pin (n : Nat) (hn : n < 3) : w.pins.getLsbD n = w.getLsbD (256 + n) := by
    simp [CommandWord.pins, hn]
  refine ⟨rows _, fun h => ?_, fun h => ?_, fun h => ?_, fun h => ?_⟩
  · rw [decodeCommand_of_rst h, pin 1 (by omega), pin 0 (by omega)]
  · exact decodeCommand_of_enc ((and_allOnes_pins _).symm.trans h)
  · exact decodeCommand_of_dec ((and_allOnes_pins _).symm.trans h)
  · rw [Machine.decodeCommand_of_nop h, pin 0 (by omega)]

/-! ## Encoding what was decoded -/

theorem encode_decodeCommand_of_rst {w : CommandWord} (h : w.pins &&& 0b100#3 = 0b100#3) :
    encode (decodeCommand w) = .command (commandWord w.pins 0 0) := by
  have bits : ∀ p : BitVec 3, p &&& 0b100#3 = 0b100#3 → pinBits true (p.getLsbD 1) (p.getLsbD 0) = p := by decide
  rw [decodeCommand_of_rst h, encode, bits _ h]

theorem encode_decodeCommand_of_nop {w : CommandWord} (h : w.pins &&& 0b110#3 = 0#3) :
    encode (decodeCommand w) = .command (commandWord w.pins 0 0) := by
  have bits : ∀ p : BitVec 3, p &&& 0b110#3 = 0#3 → pinBits false false (p.getLsbD 0) = p := by decide
  rw [Machine.decodeCommand_of_nop h, encode, bits _ h]

/-- A command word is the encoding of its command, but for the operand fields that `RST` and `NOP` ignore. -/
theorem encode_decodeCommand (w : CommandWord) :
    encode (decodeCommand w) = .command w ∨
    encode (decodeCommand w) = .command (commandWord w.pins 0 0) ∧
      ((∃ st d, decodeCommand w = .rst st d) ∨ ∃ d, decodeCommand w = .nop d) := by
  have rows : ∀ p : BitVec 3, p &&& 0b100#3 = 0b100#3 ∨ p = 0b010#3 ∨ p = 0b011#3 ∨ p &&& 0b110#3 = 0#3 := by decide
  obtain h | h | h | h := rows w.pins
  · exact .inr ⟨encode_decodeCommand_of_rst h, .inl ⟨_, _, decodeCommand_of_rst h⟩⟩
  · rw [decodeCommand_of_enc h, encode, show pinBits false true false = w.pins from h.symm, commandWord_fields]
    exact .inl rfl
  · rw [decodeCommand_of_dec h, encode, show pinBits false true true = w.pins from h.symm, commandWord_fields]
    exact .inl rfl
  · exact .inr ⟨encode_decodeCommand_of_nop h, .inr ⟨_, Machine.decodeCommand_of_nop h⟩⟩

theorem phaseOfBits_eq_some {b : BitVec 3} {p : Phase} (h : phaseOfBits b = some p) : b = phaseBits p := by
  have bits : ∀ b : BitVec 3, (phaseOfBits b).all (fun p => b = phaseBits p) := by decide
  simpa [h] using bits b

@[simp] theorem directionBit_directionOfBit (b : Bool) : directionBit (directionOfBit b) = b := by cases b <;> rfl

/-- A micro-operation word is made of its two fields (rule R84). -/
theorem microOpWord_fields {w : BitVec 4} {p : Phase} (h : phaseOfBits (w.extractLsb' 0 3) = some p) :
    microOpWord (directionOfBit (w.getLsbD 3)) p = w := by
  have fields : ∀ w : BitVec 4, BitVec.ofBool (w.getLsbD 3) ++ w.extractLsb' 0 3 = w := by decide
  rw [microOpWord, directionBit_directionOfBit, ← phaseOfBits_eq_some h, fields]

/-- A micro-operation is encoded as the word of the control position that selects it. -/
theorem encode_of_pendingMicroOp {d : Direction} {p : Phase} {i : Instr} (h : Machine.pendingMicroOp d p = some i) :
    encode i = .microOp (microOpWord d p) := by
  cases p <;> cases d <;> cases h <;> rfl

theorem encode_of_decodeMicroOp {w : BitVec 4} {i : Instr} (h : decodeMicroOp w = .ok i) : encode i = .microOp w := by
  cases hp : phaseOfBits (w.extractLsb' 0 3) with
  | none => simp [decodeMicroOp, hp] at h
  | some p =>
    have hw := microOpWord_fields hp
    rw [← hw, Machine.decodeMicroOp_microOpWord] at h
    split at h
    · next u hu => rw [← Except.ok.inj h, encode_of_pendingMicroOp hu, hw]
    · cases h

theorem oneVariant_eq_ok {p : PrimCall} {f : List Value → Except DecodeError Instr} {i : Instr} :
    oneVariant p f = .ok i ↔ p.inverse = none ∧ f p.args = .ok i := by
  cases h : p.inverse <;> simp [oneVariant, h]

theorem twoVariants_eq_ok {p : PrimCall} {f : Bool → List Value → Except DecodeError Instr} {i : Instr} :
    twoVariants p f = .ok i ↔ ∃ b, p.inverse = some b ∧ f b p.args = .ok i := by
  cases h : p.inverse <;> simp [twoVariants, h]

theorem rconIndex_eq_ok {r : Nat} {f : Fin 10 → Instr} {i : Instr} :
    rconIndex r f = .ok i ↔ ∃ q : Fin 10, q.val = r ∧ f q = i := by
  by_cases h : r < 10 <;> simp [rconIndex, h, Fin.exists_iff]

theorem roundKeyIndex_eq_ok {r : Nat} {f : Fin 11 → Instr} {i : Instr} :
    roundKeyIndex r f = .ok i ↔ ∃ q : Fin 11, q.val = r ∧ f q = i := by
  by_cases h : r < 11 <;> simp [roundKeyIndex, h, Fin.exists_iff]

/-- A call that decodes to a primitive is that primitive's encoding. -/
theorem encode_of_decodePrimitive {p : PrimCall} {i : Instr} (h : decodePrimitive p = .ok i) :
    encode i = .primitive p := by
  obtain ⟨fn, inv, args⟩ := p
  cases fn with dsimp only [decodePrimitive] at h
  | substitute | subBytes | shiftRows | mixColumns | cryptBlock =>
    obtain ⟨b, rfl, h⟩ := twoVariants_eq_ok.1 h
    dsimp only at h
    split at h <;> cases h
    cases b <;> rfl
  | roundConstant | transform =>
    obtain ⟨rfl, h⟩ := oneVariant_eq_ok.1 h
    dsimp only at h
    split at h
    · obtain ⟨q, rfl, rfl⟩ := rconIndex_eq_ok.1 h
      rfl
    · cases h
  | roundKey =>
    obtain ⟨rfl, h⟩ := oneVariant_eq_ok.1 h
    dsimp only at h
    split at h
    · obtain ⟨q, rfl, rfl⟩ := roundKeyIndex_eq_ok.1 h
      rfl
    · cases h
  | _ =>
    obtain ⟨rfl, h⟩ := oneVariant_eq_ok.1 h
    dsimp only at h
    split at h <;> cases h <;> rfl

/-- Settles O4: by the format of the word; only a command word of `RST` or `NOP` has fields that its encoding loses, and
the pins are not among them. -/
theorem encodeOfDecodeIsTheWord : Obligations.EncodeOfDecodeIsTheWord := by
  intro e i h
  have whole (he : encode i = e) : (encode i).tableBits = e.tableBits ∧ (encode i).tableWidth = e.tableWidth ∧
      ((∀ st d, i ≠ .rst st d) → (∀ d, i ≠ .nop d) → encode i = e) := ⟨he ▸ rfl, he ▸ rfl, fun _ _ => he⟩
  cases e with
  | command w =>
    obtain rfl : decodeCommand w = i := Except.ok.inj h
    obtain he | ⟨he, hi⟩ := encode_decodeCommand w
    · exact whole he
    · rw [he]
      refine ⟨congrArg BitVec.toNat (pins_commandWord ..), rfl, fun hrst hnop => ?_⟩
      obtain ⟨st, d, hd⟩ | ⟨d, hd⟩ := hi
      · exact absurd hd (hrst st d)
      · exact absurd hd (hnop d)
  | microOp w => exact whole (encode_of_decodeMicroOp h)
  | primitive p => exact whole (encode_of_decodePrimitive h)

/-- Settles O1: the decoders are run on the words. -/
theorem wordsOfTheTableDecode : Obligations.WordsOfTheTableDecode := by
  refine ⟨?_, ?_, ?_, ?_, rfl, rfl, rfl, rfl, rfl, rfl, rfl, rfl, rfl, rfl, rfl, rfl⟩ <;> decide +kernel

end Sys2Proof
end

section
/-! PROOFS. Rules R85, R88 and R89 of `30_encoding.md`: calls of primitives and the pseudo-instructions of a host line. -/

namespace Sys2Proof.Machine

/-- Settles O46: the call is what the host presents, and it decodes to the instruction. -/
theorem callPerformsThePrimitive : Obligations.CallPerformsThePrimitive := by
  intro s p rest i hl hdec
  have hp : present s.done s.lines = (.call p, rest) := by rw [hl]; rfl
  calc step s = callStep p (s.consume rest) := step_of_call hp
    _ = exec i (s.consume rest) := by rw [callStep, hdec]

/-- Of its lines a step sees only what the host presents, and what is then left. -/
theorem step_eq_of_present_eq {s : State} {l l' : List HostLine} (h : present s.done l = present s.done l') :
    step { s with lines := l } = step { s with lines := l' } := by
  simp only [step, machineStep, h]
  rfl

/-- A line that drives the pins is one tick, with the operands read at that tick. -/
theorem step_of_drive (s : State) (pins : BitVec 3) (key block : Operand) (rest : List HostLine) :
    step { s with lines := .drive pins key block :: rest }
      = tick (commandWord pins (operandValue s key) (operandValue s block)) (s.consume rest) := rfl

/-- While `DONE = 1` the port `block_out`, and so the operand `OUT`, is the unloaded `ST` (rules R26, R89). -/
theorem blockOut_of_done {s : State} (hd : s.done = true) : blockOut s = unloadState s.st := if_pos hd

/-- Settles O52: each line presents what its expansion presents. -/
theorem pseudoInstructionsAreTheirExpansions : Obligations.PseudoInstructionsAreTheirExpansions := by
  intro s key block pins rest
  refine ⟨fun hd => ?_, fun hd => ?_, step_eq_of_present_eq rfl, fun hd => ?_⟩
  · exact step_eq_of_present_eq (by simp only [present, hd]; rfl)
  · exact step_eq_of_present_eq (by simp only [present, hd]; rfl)
  · rw [step_of_drive, step_of_drive, ← blockOut_of_done hd]
    rfl

end Sys2Proof.Machine
end

section
/-! PROOFS. GF(2^8) multiplication as an operator (rules R112, R113): it is linear in its running operand, and two such operators
commute, so that it is commutative, distributive and associative. -/

namespace Sys2Proof.Machine

theorem gfmulLoop_xtime (a : Byte) (n i : Nat) (v p : Byte) :
    gfmulLoop a n i (xtime v) (xtime p) = xtime (gfmulLoop a n i v p) := by
  induction n generalizing i v p with
  | zero => rfl
  | succ n ih =>
    simp only [gfmulLoop]
    rw [← ih]
    split
    · rw [xtime_xor]
    · rfl

theorem gfmul_xtime (a v : Byte) : gfmul a (xtime v) = xtime (gfmul a v) := gfmulLoop_xtime a 8 0 v 0#8

theorem gfmul_xor_right (a v u : Byte) : gfmul a (v ^^^ u) = gfmul a v ^^^ gfmul a u := gfmulLoop_xor a 8 0 v u 0#8 0#8

theorem gfmul_zero (a : Byte) : gfmul a 0#8 = 0#8 := gfmulLoop_zero a 8 0 0#8

theorem gfmul_one : ∀ a : Byte, gfmul a 1#8 = a := by decide +kernel

theorem gfmul_gfmulLoop (a b : Byte) (n i : Nat) (v p : Byte) :
    gfmul a (gfmulLoop b n i v p) = gfmulLoop b n i (gfmul a v) (gfmul a p) := by
  induction n generalizing i v p with
  | zero => rfl
  | succ n ih =>
    simp only [gfmulLoop]
    rw [ih, gfmul_xtime]
    split
    · rw [gfmul_xor_right]
    · rfl

theorem gfmul_left_comm (a b c : Byte) : gfmul a (gfmul b c) = gfmul b (gfmul a c) := by
  calc gfmul a (gfmul b c) = gfmulLoop b 8 0 (gfmul a c) (gfmul a 0#8) := gfmul_gfmulLoop a b 8 0 c 0#8
    _ = gfmul b (gfmul a c) := by rw [gfmul_zero]; rfl

/-- Both products are the product of two operators with 1. -/
theorem gfmul_comm (a b : Byte) : gfmul a b = gfmul b a := by
  have h := gfmul_left_comm a b 1#8
  rwa [gfmul_one, gfmul_one] at h

theorem gfmul_assoc (a b c : Byte) : gfmul (gfmul a b) c = gfmul a (gfmul b c) := by
  rw [gfmul_comm, gfmul_left_comm, gfmul_comm c b]

theorem gfmul_xor_left (a b c : Byte) : gfmul (a ^^^ b) c = gfmul a c ^^^ gfmul b c := by
  rw [gfmul_comm, gfmul_xor_right, gfmul_comm c a, gfmul_comm c b]

theorem one_gfmul (a : Byte) : gfmul 1#8 a = a := by rw [gfmul_comm, gfmul_one]

theorem zero_gfmul (a : Byte) : gfmul 0#8 a = 0#8 := by rw [gfmul_comm, gfmul_zero]

end Sys2Proof.Machine
end

section
/-! PROOFS. The inverse round transforms (rule R178), and so rule R218's round trip: `DECRYPTBLOCK` undoes `ENCRYPTBLOCK`. -/

namespace Sys2Proof.Machine

/-! ## Each transform is undone -/

@[simp] theorem invSubst_subst : ∀ x : Byte, invSubst (subst x) = x := by decide +kernel

@[simp] theorem invSubBytes_subBytes (x : CipherState) : invSubBytes (subBytes x) = x :=
  CipherState.ext_cells (by simp [invSubBytes, subBytes])

@[simp] theorem invShiftRows_shiftRows (x : CipherState) : invShiftRows (shiftRows x) = x :=
  CipherState.ext_cells (by simp [invShiftRows, shiftRows])

@[simp] theorem addRoundKey_addRoundKey (x : CipherState) (rk : Block) : addRoundKey (addRoundKey x rk) rk = x :=
  CipherState.ext_cells (by simp [addRoundKey])

@[simp] theorem loadBlock_unloadState (x : CipherState) : loadBlock (unloadState x) = x :=
  CipherState.ext_cells (by simp)

@[simp] theorem unloadState_loadBlock (b : Block) : unloadState (loadBlock b) = b := block_ext_bytes (by simp)

/-- Entry `[i][k]` of the product of two matrices over GF(2^8) (rule R138). -/
def matrixProduct (m m' : Fin 4 → Fin 4 → Byte) (i k : Fin 4) : Byte :=
  gfmul (m i 0) (m' 0 k) ^^^ gfmul (m i 1) (m' 1 k) ^^^ gfmul (m i 2) (m' 2 k) ^^^ gfmul (m i 3) (m' 3 k)

theorem mixBy_mixBy (m m' : Fin 4 → Fin 4 → Byte) (x : CipherState) :
    mixBy m (mixBy m' x) = mixBy (matrixProduct m m') x := by
  refine CipherState.ext_cells fun i k => ?_
  simp only [mixBy, cell_ofCells, matrixProduct, gfmul_xor_right, gfmul_xor_left, gfmul_assoc]
  ac_rfl

theorem mixBy_identity (x : CipherState) : mixBy (fun i k => if i = k then 1#8 else 0#8) x = x := by
  refine CipherState.ext_cells fun i k => ?_
  fin_cases i <;> simp [mixBy, one_gfmul, zero_gfmul]

theorem invMix_mul_mix : matrixProduct readInvMix readMix = fun i k => if i = k then 1#8 else 0#8 := by decide +kernel

@[simp] theorem invMixColumns_mixColumns (x : CipherState) : invMixColumns (mixColumns x) = x := by
  rw [invMixColumns, mixColumns, mixBy_mixBy, invMix_mul_mix, mixBy_identity]

/-! ## Each round is undone -/

/-- A round of decryption undoes the shift and the substitution of one round of encryption, and the addition and the mix of
the round before it. -/
theorem decRoundFn_encRoundFn (x : CipherState) (rk : Block) :
    decRoundFn (shiftRows (subBytes (encRoundFn x rk))) rk = shiftRows (subBytes x) := by
  simp [decRoundFn, encRoundFn]

theorem decFinalFn_addRoundKey (x : CipherState) (rk : Block) :
    decFinalFn (shiftRows (subBytes (addRoundKey x rk))) rk = x := by
  simp [decFinalFn]

/-- Rule R218: the rounds are undone from the last to the first. -/
theorem decryptBlock_encryptBlock (b key : Block) : decryptBlock (encryptBlock b key) key = b := by
  simp only [decryptBlock, encryptBlock, encFinalFn, loadBlock_unloadState, addRoundKey_addRoundKey, List.foldl_cons,
    List.foldl_nil, decRoundFn_encRoundFn, decFinalFn_addRoundKey, unloadState_loadBlock]

end Sys2Proof.Machine
end

section
/-! PROOFS. Rules R214 to R217 of `44_cipher_engine.md`: a whole operation on the machine, from its acceptance through its 12
micro-operations and their stalls to `DONE = 1`, for both directions at once. -/

namespace Sys2Proof.Machine

/-! ## The host while an operation is under way -/

/-- A host that neither resets the engine nor calls a primitive goes on doing neither. -/
theorem present_of_quiet {done : Bool} {lines : List HostLine} (h : ∀ l ∈ lines, l.quiet = true) :
    ∃ pins key block rest, present done lines = (.pins pins key block, rest) ∧ pins.getLsbD 2 = false ∧
      ∀ l ∈ rest, l.quiet = true := by
  induction lines with
  | nil => exact ⟨_, _, _, _, rfl, rfl, h⟩
  | cons l rest ih =>
    obtain ⟨hl, hrest⟩ := List.forall_mem_cons.1 h
    cases l with
    | drive pins key block => exact ⟨_, _, _, _, rfl, by simpa [HostLine.quiet] using hl, hrest⟩
    | wait =>
      cases done with
      | true => exact ih hrest
      | false => exact ⟨_, _, _, _, rfl, rfl, h⟩
    | rtrip key block => exact ⟨_, _, _, _, rfl, rfl, by simpa [HostLine.quiet, decPins] using hrest⟩
    | call p => cases hl

/-- `RunsBusy n s t`: `n` steps lead from `s` to `t`, and before each of them the engine is busy and without a result. -/
inductive RunsBusy : Nat → State → State → Prop
  | refl (s : State) : RunsBusy 0 s s
  | step {n : Nat} {s u t : State} (hd : s.done = false) (hb : s.phase ≠ .idle) (hs : step s = .next u)
      (hr : RunsBusy n u t) : RunsBusy (n + 1) s t

theorem RunsBusy.trans {m n : Nat} {s u t : State} (h : RunsBusy m s u) (h' : RunsBusy n u t) : RunsBusy (m + n) s t := by
  induction h with
  | refl => rwa [Nat.zero_add]
  | step hd hb hs _ ih => rw [Nat.add_right_comm]; exact .step hd hb hs (ih h')

theorem RunsBusy.run_eq {n : Nat} {s t : State} (h : RunsBusy n s t) : Host.Core.run Sys2Proof.core n s = .next t := by
  induction h with
  | refl => rfl
  | step _ _ hs _ ih => rw [run_succ_of_next hs]; exact ih

/-- `WAIT` stays the host's next line until there is a result. -/
theorem RunsBusy.lines_of_wait {n : Nat} {s t : State} {rest : List HostLine} (h : RunsBusy n s t)
    (hl : s.lines = .wait :: rest) : t.lines = .wait :: rest := by
  induction h with
  | refl => exact hl
  | step hd _ hs _ ih =>
    refine ih ?_
    rw [step_lines hs, hl, hd]
    rfl

/-! ## The two directions as one -/

/-- The pins of the command that starts an operation (rule R81). -/
def startPins (d : Direction) : BitVec 3 := pinBits false true (directionBit d)

/-- The round key of step `j` of the sequence 0..10 (rules R202, R203). -/
def roundIndex (d : Direction) (j : Nat) : Fin 11 :=
  match d with
  | .encrypt => Fin.ofNat 11 j
  | .decrypt => Fin.ofNat 11 (10 - j)

/-- The function of a main round. -/
def roundFn (d : Direction) (x : CipherState) (rk : Block) : CipherState :=
  match d with
  | .encrypt => encRoundFn x rk
  | .decrypt => decRoundFn x rk

/-- The function of the final round. -/
def finalFn (d : Direction) (x : CipherState) (rk : Block) : CipherState :=
  match d with
  | .encrypt => encFinalFn x rk
  | .decrypt => decFinalFn x rk

/-- The whole-block function of an operation (rules R202, R203). -/
def cryptBlock (d : Direction) (block key : Block) : Block :=
  match d with
  | .encrypt => encryptBlock block key
  | .decrypt => decryptBlock block key

/-- The State after the initial addition and `j` main rounds. -/
def stateAfter (d : Direction) (block key : Block) : Nat → CipherState
  | 0 => addRoundKey (loadBlock block) (rKey (kExpand key) (roundIndex d 0))
  | j + 1 => roundFn d (stateAfter d block key j) (rKey (kExpand key) (roundIndex d (j + 1)))

theorem unloadState_finalFn (d : Direction) (block key : Block) :
    unloadState (finalFn d (stateAfter d block key 9) (rKey (kExpand key) (roundIndex d 10))) = cryptBlock d block key := by
  cases d <;> rfl

theorem roundIndex_mem (d : Direction) {j : Nat} (h1 : 1 ≤ j) (h9 : j ≤ 9) : 1 ≤ roundIndex d j ∧ roundIndex d j ≤ 9 := by
  cases d <;> interval_cases j <;> decide

/-- The stalls of the micro-operation that is pending at a control position after `EXPAND` (rule R282). -/
def phaseStalls (d : Direction) (p : Phase) : Nat :=
  match p, d with
  | .init, .encrypt => Config.stallCycles .encInit
  | .init, .decrypt => Config.stallCycles .decInit
  | .main, .encrypt => Config.stallCycles .encRound
  | .main, .decrypt => Config.stallCycles .decRound
  | .final, .encrypt => Config.stallCycles .encFinal
  | .final, .decrypt => Config.stallCycles .decFinal
  | _, _ => 0

/-- The acceptance tick, and each of the 12 micro-operations after its stalls. -/
theorem operationSteps_eq (s : State) (d : Direction) (k : Block) :
    operationSteps s d k = ((if s.ksCache = some k then Config.stallCyclesOnHit else Config.stallCycles .expand) + 1 +
      (phaseStalls d .init + 1) + 9 * (phaseStalls d .main + 1) + (phaseStalls d .final + 1)) + 1 := by
  cases d <;> simp only [operationSteps, phaseStalls] <;> omega

/-! ## The control positions of an operation -/

/-- The engine works with the key `k` on the State `x` and stands at the control position `(p, r)`; it has a result exactly
when it is idle again. -/
structure InOperation (d : Direction) (k : Block) (p : Phase) (r : Fin 11) (x : CipherState) (s : State) : Prop where
  dir : s.dir = d
  key : s.key = k
  phase : s.phase = p
  rnd : s.rnd = r
  st : s.st = x
  w : p ≠ .expand → s.w = kExpand k
  done : s.done = !busy s
  quiet : ∀ l ∈ s.lines, l.quiet = true

section
variable {d : Direction} {k : Block} {p : Phase} {r : Fin 11} {x : CipherState} {s : State}
variable (h : InOperation d k p r x s)
include h

theorem InOperation.arm : InOperation d k p r x s.arm :=
  ⟨h.dir, h.key, h.phase, h.rnd, h.st, h.w, h.done, h.quiet⟩

theorem InOperation.stall : InOperation d k p r x s.stall :=
  ⟨h.dir, h.key, h.phase, h.rnd, h.st, h.w, h.done, h.quiet⟩

theorem InOperation.consume {rest : List HostLine} (hq : ∀ l ∈ rest, l.quiet = true) :
    InOperation d k p r x (s.consume rest) :=
  ⟨h.dir, h.key, h.phase, h.rnd, h.st, h.w, h.done, hq⟩

theorem InOperation.done_eq_false (hp : p ≠ .idle) : s.done = false := by
  rw [h.done, (busy_eq_true_iff s).2 (h.phase ▸ hp)]
  rfl

theorem InOperation.pendingStalls_eq (hp : p ≠ .expand) : s.pendingStalls = phaseStalls d p := by
  cases p with
  | expand => exact absurd rfl hp
  | _ => cases d <;> simp only [State.pendingStalls, phaseStalls, h.phase, h.dir]

/-! ### Steps -/

/-- A step of a busy engine is its own, whatever a quiet host presents. -/
theorem InOperation.step_eq (hp : p ≠ .idle) :
    ∃ rest, step s = engineStep (s.consume rest) ∧ InOperation d k p r x (s.consume rest) := by
  obtain ⟨pins, key, block, rest, hpres, hrst, hq⟩ := present_of_quiet (done := s.done) h.quiet
  exact ⟨rest, step_of_busy hpres hrst (h.phase ▸ hp), h.consume hq⟩

/-- The pending micro-operation is performed after its stalls. -/
theorem InOperation.perform {i : Instr} {p' : Phase} {r' : Fin 11} {x' : CipherState} (hi : pendingMicroOp d p = some i)
    (hx : ∀ u, InOperation d k p r x u → ∃ v, exec i u = .next v ∧ InOperation d k p' r' x' v) (hp' : p' ≠ .expand) :
    ∃ t, RunsBusy (s.stallsLeft + 1) s t ∧ InOperation d k p' r' x' t ∧ t.stallsLeft = phaseStalls d p' := by
  have hp : p ≠ .idle := fun e => by rw [pendingMicroOp_eq_none.2 e] at hi; cases hi
  induction hn : s.stallsLeft generalizing s with
  | zero =>
    obtain ⟨rest, hs, hc⟩ := h.step_eq hp
    obtain ⟨v, hv, ht⟩ := hx _ hc
    rw [engineStep_of_pending (s := s.consume rest) hn (by rw [hc.dir, hc.phase, hi]), hv] at hs
    exact ⟨v.arm, .step (h.done_eq_false hp) (h.phase ▸ hp) hs (.refl _), ht.arm, ht.pendingStalls_eq hp'⟩
  | succ n ih =>
    obtain ⟨rest, hs, hc⟩ := h.step_eq hp
    rw [engineStep_of_stall (s := s.consume rest) (by rw [State.consume_stallsLeft, hn]; omega)] at hs
    obtain ⟨t, hr, ht⟩ := ih hc.stall (by simp [hn])
    exact ⟨t, .step (h.done_eq_false hp) (h.phase ▸ hp) hs hr, ht⟩

/-! ### The writes of the micro-operations -/

theorem InOperation.writeSchedule (hp : p = .expand) :
    InOperation d k .init r x (s.writeSchedule (kExpand s.key)) :=
  ⟨h.dir, h.key, rfl, h.rnd, h.st, fun _ => congrArg kExpand h.key, h.done_eq_false (by simp [hp]), h.quiet⟩

theorem InOperation.writeRound (hp : p = .init ∨ p = .main) {p' : Phase} (hp' : p' ≠ .idle) (r' : Fin 11)
    (x' : CipherState) : InOperation d k p' r' x' (s.writeRound x' p' r') where
  dir := h.dir
  key := h.key
  phase := rfl
  rnd := rfl
  st := rfl
  w := fun _ => h.w (by rcases hp with rfl | rfl <;> simp)
  done := by
    have hd := h.done_eq_false (by rcases hp with rfl | rfl <;> simp)
    simpa [busy, hp'] using hd
  quiet := h.quiet

theorem InOperation.finish (hp : p = .final) (x' : CipherState) : InOperation d k .idle r x' (s.finish x') :=
  ⟨h.dir, h.key, rfl, h.rnd, rfl, fun _ => h.w (by simp [hp]), rfl, h.quiet⟩

end

/-! ## The micro-operations of an operation -/

section
variable {d : Direction} {k b : Block} {s : State}

theorem InOperation.expand {r : Fin 11} {x : CipherState} (h : InOperation d k .expand r x s) :
    ∃ t, RunsBusy (s.stallsLeft + 1) s t ∧ InOperation d k .init r x t ∧ t.stallsLeft = phaseStalls d .init :=
  h.perform (i := .expand d) (by cases d <;> rfl) (fun _ hu => ⟨_, rfl, hu.writeSchedule rfl⟩) (by simp)

theorem InOperation.init (h : InOperation d k .init (roundIndex d 0) (loadBlock b) s) :
    ∃ t, RunsBusy (s.stallsLeft + 1) s t ∧ InOperation d k .main (roundIndex d 1) (stateAfter d b k 0) t ∧
      t.stallsLeft = phaseStalls d .main := by
  have write {u : State} (hu : InOperation d k .init (roundIndex d 0) (loadBlock b) u) :
      InOperation d k .main (roundIndex d 1) (stateAfter d b k 0)
        (u.writeRound (addRoundKey u.st (rKey u.w u.rnd)) .main (roundIndex d 1)) := by
    rw [hu.st, hu.w (by simp), hu.rnd]
    exact hu.writeRound (.inl rfl) (by simp) _ _
  cases d with
  | encrypt => exact h.perform rfl (fun u hu => ⟨_, (Effect.encInit hu.rnd).exec_eq, write hu⟩) (by simp)
  | decrypt => exact h.perform rfl (fun u hu => ⟨_, (Effect.decInit hu.rnd).exec_eq, write hu⟩) (by simp)

/-- The phase after `j` main rounds (rule R214). -/
def phaseAfter (j : Nat) : Phase := if j = 9 then .final else .main

theorem phaseAfter_eq_or (j : Nat) : phaseAfter j = .final ∨ phaseAfter j = .main := ite_eq_or_eq ..

/-- The micro-operation of a main round (rule R84). -/
def roundOp (d : Direction) : Instr :=
  match d with
  | .encrypt => .encRound
  | .decrypt => .decRound

/-- A main round at step `j + 1` of the sequence goes on to step `j + 2` (rules R210, R211). -/
theorem exec_roundOp {j : Nat} (hj : j < 9) (hr : s.rnd = roundIndex d (j + 1)) :
    exec (roundOp d) s
      = .next (s.writeRound (roundFn d s.st (rKey s.w s.rnd)) (phaseAfter (j + 1)) (roundIndex d (j + 2))) := by
  have hmem : 1 ≤ s.rnd ∧ s.rnd ≤ 9 := hr ▸ roundIndex_mem d (by omega) (by omega)
  cases d with
  | encrypt =>
    have target : (if roundIndex .encrypt (j + 1) = 9 then Phase.final else .main) = phaseAfter (j + 1) ∧
        roundIndex .encrypt (j + 1) + 1 = roundIndex .encrypt (j + 2) := by
      interval_cases j <;> decide
    rw [← target.1, ← target.2, ← hr]
    exact (Effect.encRound hmem).exec_eq
  | decrypt =>
    have target : (if roundIndex .decrypt (j + 1) = 1 then Phase.final else .main) = phaseAfter (j + 1) ∧
        roundIndex .decrypt (j + 1) - 1 = roundIndex .decrypt (j + 2) := by
      interval_cases j <;> decide
    rw [← target.1, ← target.2, ← hr]
    exact (Effect.decRound hmem).exec_eq

theorem InOperation.round {j : Nat} (hj : j < 9) (h : InOperation d k .main (roundIndex d (j + 1)) (stateAfter d b k j) s) :
    ∃ t, RunsBusy (s.stallsLeft + 1) s t ∧
      InOperation d k (phaseAfter (j + 1)) (roundIndex d (j + 2)) (stateAfter d b k (j + 1)) t ∧
      t.stallsLeft = phaseStalls d (phaseAfter (j + 1)) := by
  have hbusy : phaseAfter (j + 1) ≠ .idle ∧ phaseAfter (j + 1) ≠ .expand := by
    rcases phaseAfter_eq_or (j + 1) with e | e <;> simp [e]
  refine h.perform (i := roundOp d) (by cases d <;> rfl) (fun u hu => ⟨_, exec_roundOp hj hu.rnd, ?_⟩) hbusy.2
  rw [hu.st, hu.w (by simp), hu.rnd]
  exact hu.writeRound (.inr rfl) hbusy.1 _ _

theorem InOperation.final {x : CipherState} (h : InOperation d k .final (roundIndex d 10) x s) :
    ∃ t, RunsBusy (s.stallsLeft + 1) s t ∧
      InOperation d k .idle (roundIndex d 10) (finalFn d x (rKey (kExpand k) (roundIndex d 10))) t ∧
      t.stallsLeft = phaseStalls d .idle := by
  have write {u : State} (hu : InOperation d k .final (roundIndex d 10) x u) :
      InOperation d k .idle (roundIndex d 10) (finalFn d x (rKey (kExpand k) (roundIndex d 10)))
        (u.finish (finalFn d u.st (rKey u.w u.rnd))) := by
    rw [hu.st, hu.w (by simp), hu.rnd]
    exact hu.finish rfl _
  cases d with
  | encrypt => exact h.perform rfl (fun u hu => ⟨_, (Effect.encFinal hu.rnd).exec_eq, write hu⟩) (by simp)
  | decrypt => exact h.perform rfl (fun u hu => ⟨_, (Effect.decFinal hu.rnd).exec_eq, write hu⟩) (by simp)

/-- The main rounds, one after the other. -/
theorem InOperation.rounds (h : InOperation d k .main (roundIndex d 1) (stateAfter d b k 0) s)
    (hs : s.stallsLeft = phaseStalls d .main) {j : Nat} (hj : j ≤ 9) :
    ∃ t, RunsBusy (j * (phaseStalls d .main + 1)) s t ∧
      InOperation d k (phaseAfter j) (roundIndex d (j + 1)) (stateAfter d b k j) t ∧
      t.stallsLeft = phaseStalls d (phaseAfter j) := by
  induction j with
  | zero => exact ⟨s, by rw [Nat.zero_mul]; exact .refl s, h, hs⟩
  | succ j ih =>
    obtain ⟨u, hru, hu, hsu⟩ := ih (by omega)
    have hmain : phaseAfter j = .main := if_neg (by omega)
    rw [hmain] at hu hsu
    obtain ⟨t, hrt, ht⟩ := hu.round (by omega)
    rw [hsu] at hrt
    exact ⟨t, by rw [Nat.succ_mul]; exact hru.trans hrt, ht⟩

end

/-! ## The whole operation -/

/-- An idle engine accepts the command on its ports, with the operands read at that tick (rules R204, R205). -/
theorem step_of_start {s : State} {d : Direction} {key block : Operand} {rest : List HostLine} (hi : s.phase = .idle)
    (hp : present s.done s.lines = (.pins (startPins d) key block, rest)) :
    step s = .next ((s.consume rest).accept d (operandValue s key) (operandValue s block)).arm := by
  rw [step_of_command hp (.inr hi), presentedWord, startPins, decodeCommand_commandWord]
  cases d with
  | encrypt => exact congrArg armNext (Effect.encAccepted (s := s.consume rest) hi _ _).exec_eq
  | decrypt => exact congrArg armNext (Effect.decAccepted (s := s.consume rest) hi _ _).exec_eq

/-- An accepted operation ends with its result: nothing is assumed of the engine but that it is idle, nor of the host but
that it stays quiet (rules R216, R217). -/
theorem operation_ends {s : State} {d : Direction} {key block : Operand} {rest : List HostLine} (hi : s.phase = .idle)
    (hp : present s.done s.lines = (.pins (startPins d) key block, rest)) (hq : ∀ l ∈ rest, l.quiet = true) :
    ∃ (u t : State) (n : Nat), step s = .next u ∧ u.lines = rest ∧ RunsBusy n u t ∧
      n + 1 = operationSteps s d (operandValue s key) ∧
      ∃ x, InOperation d (operandValue s key) .idle (roundIndex d 10) x t ∧
        unloadState x = cryptBlock d (operandValue s block) (operandValue s key) := by
  have hs := step_of_start hi hp
  have h0 : InOperation d (operandValue s key) .expand (roundIndex d 0) (loadBlock (operandValue s block))
      ((s.consume rest).accept d (operandValue s key) (operandValue s block)).arm :=
    ⟨rfl, rfl, rfl, by cases d <;> rfl, rfl, fun e => absurd rfl e, rfl, hq⟩
  obtain ⟨t1, hr1, h1, hs1⟩ := h0.expand
  obtain ⟨t2, hr2, h2, hs2⟩ := h1.init
  obtain ⟨t3, hr3, h3, hs3⟩ := h2.rounds hs2 (Nat.le_refl 9)
  obtain ⟨t4, hr4, h4, -⟩ := h3.final
  refine ⟨_, t4, _, hs, rfl, ((hr1.trans hr2).trans hr3).trans hr4, ?_, _, h4, unloadState_finalFn ..⟩
  rw [operationSteps_eq, hs1, hs3]
  rfl

end Sys2Proof.Machine
end

section
/-! PROOFS. The host line `RTRIP` of rule R89, run to its end. -/

namespace Sys2Proof.Machine

/-- An operation that the host waits for, as one run to its result. -/
theorem operation_ends_waiting {s : State} {d : Direction} {key block : Operand} {rest : List HostLine}
    (hi : s.phase = .idle) (hp : present s.done s.lines = (.pins (startPins d) key block, .wait :: rest))
    (hq : ∀ l ∈ rest, l.quiet = true) :
    ∃ (n : Nat) (t : State), Host.Core.run Sys2Proof.core n s = .next t ∧ t.lines = .wait :: rest ∧ t.phase = .idle ∧
      t.done = true ∧ t.dir = d ∧ t.key = operandValue s key ∧
      blockOut t = cryptBlock d (operandValue s block) (operandValue s key) := by
  obtain ⟨u, t, n, hs, hl, hr, -, x, ht, hx⟩ := operation_ends hi hp (List.forall_mem_cons.2 ⟨rfl, hq⟩)
  have hd : t.done = true := by rw [ht.done, (busy_eq_false_iff t).2 ht.phase]; rfl
  refine ⟨n + 1, t, by rw [run_succ_of_next hs, hr.run_eq], hr.lines_of_wait hl, ht.phase, hd, ht.dir, ht.key, ?_⟩
  rw [blockOut_of_done hd, ht.st, hx]

/-- Settles O59: the first operation ends with `ENCRYPTBLOCK` of the block on `block_out`, which `OUT` feeds back; the second
undoes it; and the last `WAIT` is passed in one more tick. -/
theorem roundTripLineGivesTheBlockBack : Obligations.RoundTripLineGivesTheBlockBack := by
  intro s key block hi hl
  obtain ⟨n, t, hrun, htl, hti, htd, -, -, hout⟩ := operation_ends_waiting (d := .encrypt) (key := .literal key)
    (block := .literal block) (rest := [.drive decPins (.literal key) .out, .wait]) hi (by rw [hl]; rfl)
    (by simp [HostLine.quiet, decPins])
  obtain ⟨m, u, hrun', hul, hui, hud, hudir, hukey, hout'⟩ := operation_ends_waiting (d := .decrypt) (key := .literal key)
    (block := .out) (rest := []) hti (by rw [htl, htd]; rfl) (by simp)
  have hback : blockOut u = block := calc
    blockOut u = decryptBlock (blockOut t) key := hout'
    _ = decryptBlock (encryptBlock block key) key := by rw [hout]; rfl
    _ = block := decryptBlock_encryptBlock block key
  have hlast : step u = .next { u.consume [] with stallsLeft := 0 } :=
    step_of_nop (pins := nopPins) (key := .literal 0) (block := .literal 0) (by rw [hul, hud]; rfl) rfl hui
  refine ⟨n + (m + 1), { u.consume [] with stallsLeft := 0 }, by omega, ?_, rfl, hui, hud, hudir, hukey, ?_⟩
  · rw [run_add hrun, run_add hrun', run_succ_of_next hlast]
    rfl
  · rw [← hback, blockOut_of_done hud]
    exact blockOut_of_done hud

end Sys2Proof.Machine
end

section
/-! PROOFS. The instructions of GF arithmetic (`40_gf_arithmetic.md`, rules R110 to R113): what each returns, the multiply loop
as the sum of doublings, and the inverse that excludes zero divisors. -/

namespace Sys2Proof.Machine

/-! ## What the instructions return -/

theorem returns_xor {ops : XorOperands} {v : Value} (h : xorValue ops = v) : Returns (.xor ops) v := h ▸ fun _ => rfl

theorem returns_xtime {v u : Byte} (h : xtime v = u) : Returns (.xtime v) (.byte u) := h ▸ fun _ => rfl

theorem returns_gfmul {a b v : Byte} (h : gfmul a b = v) : Returns (.gfmul a b) (.byte v) := h ▸ fun _ => rfl

/-! ## Multiplication -/

/-- From iteration `i` on, where the running value is `b` doubled `i` times, the loop adds the doublings that the bits of `a`
select. -/
theorem gfmulLoop_eq_foldl (a b : Byte) (n i : Nat) (p : Byte) :
    gfmulLoop a n i (xtime^[i] b) p =
      (List.range' i n).foldl (fun acc j => if a.getLsbD j then acc ^^^ xtime^[j] b else acc) p := by
  induction n generalizing i p with
  | zero => rfl
  | succ n ih => rw [gfmulLoop, ← Function.iterate_succ_apply' xtime, ih, List.range'_succ, List.foldl_cons]

theorem gfmul_eq_foldl (a b : Byte) :
    gfmul a b = (List.range 8).foldl (fun acc i => if a.getLsbD i then acc ^^^ xtime^[i] b else acc) 0 := by
  rw [List.range_eq_range']
  exact gfmulLoop_eq_foldl a b 8 0 0

/-- Doubling is multiplication by `xtime 1`, the byte 2. -/
theorem two_gfmul (a : Byte) : gfmul 0x02 a = xtime a := by
  calc gfmul 0x02 a = gfmul a (xtime 1#8) := gfmul_comm _ _
    _ = xtime a := by rw [gfmul_xtime, gfmul_one]

theorem three_gfmul (a : Byte) : gfmul 0x03 a = xtime a ^^^ a := by
  calc gfmul 0x03 a = gfmul (0x02 ^^^ 1#8) a := rfl
    _ = xtime a ^^^ a := by rw [gfmul_xor_left, two_gfmul, one_gfmul]

/-- The power 254 of `a`: multiplying by `a` and squaring, seven times, takes the exponent from 0 over 2, 6, 14, … to 254. -/
def gfInverse (a : Byte) : Byte := (fun v => gfmul (gfmul v a) (gfmul v a))^[7] 1#8

theorem gfInverse_gfmul : ∀ a : Byte, a ≠ 0 → gfmul (gfInverse a) a = 1#8 := by decide +kernel

/-- A field has no zero divisors: multiplying the product by the inverse of `a` gives `b` back. -/
theorem gfmul_ne_zero {a b : Byte} (ha : a ≠ 0) (hb : b ≠ 0) : gfmul a b ≠ 0 := by
  intro h
  apply hb
  calc b = gfmul (gfmul (gfInverse a) a) b := by rw [gfInverse_gfmul a ha, one_gfmul]
    _ = gfmul (gfInverse a) (gfmul a b) := gfmul_assoc _ _ _
    _ = 0 := by rw [h]; exact gfmul_zero _

/-- Settles O7: the loop is the fold over the bits of `a`; the products with 2 and 3 come from commutativity and distributivity,
and inverses exclude zero divisors. -/
theorem gfmulAccumulatesDoublings : Obligations.GfmulAccumulatesDoublings := by
  refine ⟨fun a b => returns_gfmul (gfmul_eq_foldl a b), fun a => ?_,
    fun a b ha hb => ⟨_, gfmul_ne_zero ha hb, returns_gfmul rfl⟩, returns_gfmul (by decide), returns_gfmul (by decide),
    returns_gfmul (by decide)⟩
  exact ⟨returns_gfmul (gfmul_zero a), returns_gfmul (zero_gfmul a), returns_gfmul (gfmul_one a), returns_gfmul (one_gfmul a),
    returns_gfmul (two_gfmul a), returns_gfmul (three_gfmul a)⟩

/-- Settles O8: the four laws of the multiplication as an operator. -/
theorem gfmulLaws : Obligations.GfmulLaws := fun a b c =>
  ⟨gfmul_comm a b, gfmul_xor_right a b c, gfmul_one a, gfmul_zero a⟩

/-! ## Doubling -/

/-- Bit 7 is the bit of weight 128. -/
theorem getLsbD_seven (v : Byte) : v.getLsbD 7 = decide (128 ≤ v.toNat) :=
  (BitVec.msb_eq_getLsbD_last v).symm.trans (BitVec.msb_eq_decide v)

theorem xtime_toNat_of_lt {v : Byte} (h : v.toNat < 128) : (xtime v).toNat = 2 * v.toNat := by
  have h7 : v.getLsbD 7 = false := by rw [getLsbD_seven, decide_eq_false (by omega)]
  simp only [xtime, h7, Bool.false_eq_true, if_false, BitVec.toNat_shiftLeft, Nat.shiftLeft_eq]
  omega

theorem xtime_toNat_of_le {v : Byte} (h : 128 ≤ v.toNat) : (xtime v).toNat = (2 * v.toNat - 256) ^^^ 0x1B := by
  have h7 : v.getLsbD 7 = true := by rw [getLsbD_seven, decide_eq_true h]
  have hshift : (v <<< 1).toNat = 2 * v.toNat - 256 := by
    have := v.isLt
    rw [BitVec.toNat_shiftLeft, Nat.shiftLeft_eq]
    omega
  rw [xtime, if_pos h7, BitVec.toNat_xor, hshift]
  rfl

/-- Settles O6: by bit 7 of the operand; the examples are evaluated. -/
theorem xtimeShiftsAndReduces : Obligations.XtimeShiftsAndReduces :=
  ⟨fun v => ⟨xtime v, returns_xtime rfl, returns_gfmul (two_gfmul v), xtime_toNat_of_lt, xtime_toNat_of_le⟩,
    returns_xtime (by decide), returns_xtime (by decide), returns_xtime (by decide), returns_xtime (by decide),
    returns_xtime (by decide), returns_xtime (by decide)⟩

/-! ## Addition -/

theorem exec_xor_congr {ops ops' : XorOperands} (h : xorValue ops = xorValue ops') (s : State) :
    exec (.xor ops) s = exec (.xor ops') s := (returns_xor h s).trans (returns_xor rfl s).symm

/-- Settles O5: each form acts bit by bit, so on the bytes of a Word, a block or a State; the laws are those of `BitVec`. -/
theorem xorIsBitwise : Obligations.XorIsBitwise := by
  refine ⟨fun a b => ⟨a ^^^ b, returns_xor rfl, fun i => ?_⟩, fun a b => ⟨a ^^^ b, returns_xor rfl, wordByte_xor a b⟩,
    fun a b => ⟨a ^^^ b, returns_xor rfl, blockByte_xor a b⟩, fun a b => ⟨_, returns_xor rfl, cell_ofCells _⟩,
    fun a b c => ⟨returns_xor ?_, returns_xor ?_, exec_xor_congr ?_, exec_xor_congr ?_⟩, returns_xor (by decide)⟩
  · rw [BitVec.getLsbD_xor, bne_iff_ne]
  · exact congrArg Value.byte BitVec.xor_zero
  · exact congrArg Value.byte BitVec.xor_self
  · exact congrArg Value.byte (BitVec.xor_comm a b)
  · exact congrArg Value.byte (BitVec.xor_assoc a b c)

end Sys2Proof.Machine
end

section
/-! PROOFS. The constant tables of `41_substitution_tables.md` (rules R130 to R138) and the round constants of `RCONW` (rule
R152): what a lookup returns, entry by entry, and the laws that the entries meet. -/

namespace Sys2Proof.Machine

/-! ## What the instructions return -/

theorem returns_subst {x y : Byte} (h : subst x = y) : Returns (.subst x) (.byte y) := h ▸ fun _ => rfl

theorem returns_invSubst {x y : Byte} (h : invSubst x = y) : Returns (.invSubst x) (.byte y) := h ▸ fun _ => rfl

theorem returns_rconW {r : Fin 10} {w : Word} (h : rconW r = w) : Returns (.rconW r) (.word w) := h ▸ fun _ => rfl

/-! ## The two tables are inverse permutations -/

/-- `SUBST` is injective, since it is undone, and an injective map of a finite set to itself is onto. -/
@[simp] theorem subst_invSubst (x : Byte) : subst (invSubst x) = x := by
  have hfin : Finite Byte := .of_injective BitVec.toFin fun _ _ => BitVec.eq_of_toFin_eq
  have hundone : Function.LeftInverse invSubst subst := invSubst_subst
  exact hundone.rightInverse_of_surjective (Finite.surjective_of_injective hundone.injective) x

/-- Rule R134: substitution as a permutation of the byte values. -/
def substPerm : Equiv.Perm Byte := ⟨subst, invSubst, invSubst_subst, subst_invSubst⟩

theorem subst_eq_iff {x y : Byte} : subst x = y ↔ x = invSubst y := substPerm.eq_symm_apply.symm

/-- Settles O10: a permutation takes every value exactly once. -/
theorem substitutionsAreInverse : Obligations.SubstitutionsAreInverse := fun x =>
  ⟨invSubst_subst x, subst_invSubst x, substPerm.bijective.existsUnique x, substPerm.symm.bijective.existsUnique x⟩

/-! ## The entries of the two tables -/

/-- The high nibble. -/
theorem tableRow_val (x : Byte) : (tableRow x).val = x.toNat / 16 := by
  rw [tableRow, BitVec.val_toFin, BitVec.extractLsb'_toNat, Nat.shiftRight_eq_div_pow]
  omega

/-- The low nibble. -/
theorem tableCol_val (x : Byte) : (tableCol x).val = x.toNat % 16 := BitVec.extractLsb'_toNat ..

/-- A lookup by row and column returns, over a row of operands, the bytes of that row of the table. -/
theorem readsRow_of_table {lookup : Byte → Instr} {table : Vector Block 16}
    (hlookup : ∀ x, Returns (lookup x) (.byte (blockByte table[tableRow x] (tableCol x)))) {row : Nat} (hrow : row < 16)
    {entries : List Byte} (h : blockBytes table[row] = entries) : ReadsRow lookup row entries := by
  subst h
  refine ⟨blockBytes_length _, fun col hcol => ?_⟩
  have hcol16 : col < 16 := blockBytes_length _ ▸ hcol
  have hr : tableRow (BitVec.ofNat 8 (16 * row + col)) = ⟨row, hrow⟩ :=
    Fin.ext (by simp only [tableRow_val, BitVec.toNat_ofNat]; omega)
  have hc : tableCol (BitVec.ofNat 8 (16 * row + col)) = ⟨col, hcol16⟩ :=
    Fin.ext (by simp only [tableCol_val, BitVec.toNat_ofNat]; omega)
  simpa only [hr, hc, Fin.getElem_fin, blockBytes, List.getElem_ofFn] using hlookup (BitVec.ofNat 8 (16 * row + col))

theorem readsRow_subst (row : Nat) {entries : List Byte} (hrow : row < 16 := by decide)
    (h : blockBytes sboxRows[row] = entries := by decide +kernel) : ReadsRow .subst row entries :=
  readsRow_of_table (fun _ => returns_subst rfl) hrow h

theorem readsRow_invSubst (row : Nat) {entries : List Byte} (hrow : row < 16 := by decide)
    (h : blockBytes invSboxRows[row] = entries := by decide +kernel) : ReadsRow .invSubst row entries :=
  readsRow_of_table (fun _ => returns_invSubst rfl) hrow h

theorem subst_ne_self : ∀ x : Byte, subst x ≠ x := by decide +kernel

/-- A fixed point of the inverse would be one of the table itself. -/
theorem invSubst_ne_self (x : Byte) : invSubst x ≠ x := fun h => subst_ne_self x (subst_eq_iff.mpr h.symm)

theorem subst_eq_zero_iff (x : Byte) : subst x = 0 ↔ x = 0x52 := by
  rw [subst_eq_iff, show invSubst 0 = 0x52 by decide]

/-- Settles O9: each row of operands reads the bytes of its row of the table; the corner cases follow from the permutation and
from `SUBST` having no fixed point. -/
theorem substLooksUpRowAndColumn : Obligations.SubstLooksUpRowAndColumn :=
  ⟨readsRow_subst 0, readsRow_subst 1, readsRow_subst 2, readsRow_subst 3, readsRow_subst 4, readsRow_subst 5,
    readsRow_subst 6, readsRow_subst 7, readsRow_subst 8, readsRow_subst 9, readsRow_subst 10, readsRow_subst 11,
    readsRow_subst 12, readsRow_subst 13, readsRow_subst 14, readsRow_subst 15,
    readsRow_invSubst 0, readsRow_invSubst 1, readsRow_invSubst 2, readsRow_invSubst 3, readsRow_invSubst 4,
    readsRow_invSubst 5, readsRow_invSubst 6, readsRow_invSubst 7, readsRow_invSubst 8, readsRow_invSubst 9,
    readsRow_invSubst 10, readsRow_invSubst 11, readsRow_invSubst 12, readsRow_invSubst 13, readsRow_invSubst 14,
    readsRow_invSubst 15,
    fun x => ⟨subst x, invSubst x, returns_subst rfl, subst_ne_self x, subst_eq_zero_iff x, returns_invSubst rfl,
      invSubst_ne_self x, returns_invSubst (invSubst_subst x), returns_subst (subst_invSubst x)⟩,
    returns_subst (by decide), returns_subst (by decide), returns_subst (by decide), returns_invSubst (by decide),
    returns_invSubst (by decide), returns_invSubst (by decide), returns_invSubst (by decide)⟩

/-! ## The mix matrices -/

theorem readMix_circulant : ∀ i j : Fin 4, readMix i j = readMix 0 (j - i) := by decide

theorem readInvMix_circulant : ∀ i j : Fin 4, readInvMix i j = readInvMix 0 (j - i) := by decide

theorem mix_mul_invMix : matrixProduct readMix readInvMix = fun i k => if i = k then 1#8 else 0#8 := by decide +kernel

/-- Settles O11: both matrices are circulant, and both of their products are the identity. -/
theorem mixMatricesAreInverse : Obligations.MixMatricesAreInverse :=
  ⟨fun i j => ⟨readMix_circulant i j, readInvMix_circulant i j⟩,
    fun i k => ⟨congrFun₂ invMix_mul_mix i k, congrFun₂ mix_mul_invMix i k⟩⟩

/-! ## The round constants -/

/-- Rule R135: the first byte is 1 and every next one is its double. -/
theorem rconBytes_eq_iterate_xtime : ∀ r : Fin 10, rconBytes[r] = xtime^[r.val] 1 := by decide

/-- Settles O14: the Word is laid out with the round-constant byte on top, and that byte is 1 doubled `r` times. -/
theorem rconHoldsTheDoublings : Obligations.RconHoldsTheDoublings := by
  refine ⟨fun r => ⟨rconW r, returns_rconW rfl, ?_⟩, returns_rconW rfl, returns_rconW rfl, returns_rconW rfl,
    returns_rconW rfl, returns_rconW rfl⟩
  simp only [rconW, readRcon, wordByte_wordOfBytes, and_true]
  exact rconBytes_eq_iterate_xtime r

end Sys2Proof.Machine
end

section
/-! PROOFS. The instructions of key expansion (`42_key_expansion.md`, rules R150 to R155): what each returns, byte by byte for
Words and round keys, word by word for the schedule. -/

namespace Sys2Proof.Machine

/-! ## What the instructions return -/

theorem returns_rotWord {w v : Word} (h : rotWord w = v) : Returns (.rotWord w) (.word v) := h ▸ fun _ => rfl

theorem returns_subWord {w v : Word} (h : subWord w = v) : Returns (.subWord w) (.word v) := h ▸ fun _ => rfl

theorem returns_kTransform {w v : Word} {r : Fin 10} (h : kTransform w r = v) : Returns (.kTransform w r) (.word v) :=
  h ▸ fun _ => rfl

theorem returns_rKey {wd : Schedule} {r : Fin 11} {k : Block} (h : rKey wd r = k) : Returns (.rKey wd r) (.block k) :=
  h ▸ fun _ => rfl

theorem returns_kExpand {key : List Byte} (h : key.length = 16) :
    Returns (.kExpand key) (.schedule (kExpand (blockOfList key h))) := fun s => by
  simp only [exec, execKExpand, checkBytes_of_length h, returnValue_eq]

theorem raises_kExpand {key : List Byte} (h : key.length ≠ 16) : Raises (.kExpand key) .invalidLength := fun s => by
  simp only [exec, execKExpand, checkBytes_of_length_ne h, raiseError_eq]

/-! ## Rotation -/

/-- Every byte moves up by one position, cyclically. -/
theorem wordByte_rotWord (w : Word) (b : Fin 4) : wordByte (rotWord w) b = wordByte w (b + 1) := by
  rw [rotWord, wordByte_wordOfBytes]
  fin_cases b <;> rfl

theorem rotWord_wordOfBytes (b0 b1 b2 b3 : Byte) : rotWord (wordOfBytes b0 b1 b2 b3) = wordOfBytes b1 b2 b3 b0 := by
  simp only [rotWord, wordByte_wordOfBytes]

theorem rotWord_eq_shifts (w : Word) : rotWord w = (w <<< 8) ||| (w >>> 24) := by
  apply BitVec.eq_of_getLsbD_eq
  intro i hi
  simp only [rotWord, wordOfBytes, wordByte, BitVec.getLsbD_append, BitVec.getLsbD_extractLsb', BitVec.getLsbD_or,
    BitVec.getLsbD_shiftLeft, BitVec.getLsbD_ushiftRight]
  interval_cases i <;> simp

/-- Four moves by one of the four positions are none. -/
theorem rotWord_four_times (w : Word) : rotWord (rotWord (rotWord (rotWord w))) = w :=
  word_ext_bytes fun b => by
    have hcycle : b + 1 + 1 + 1 + 1 = b := by omega
    simp only [wordByte_rotWord, hcycle]

/-- Settles O12: the two shifts are the move of the bytes, bit by bit. -/
theorem rotWordRotatesByOneByte : Obligations.RotWordRotatesByOneByte :=
  ⟨fun w => ⟨returns_rotWord (rotWord_eq_shifts w), rotWord_four_times w⟩,
    fun b0 b1 b2 b3 => returns_rotWord (rotWord_wordOfBytes b0 b1 b2 b3), returns_rotWord (by decide)⟩

/-! ## Substitution -/

theorem wordByte_subWord (w : Word) (b : Fin 4) : wordByte (subWord w) b = subst (wordByte w b) := by
  rw [subWord, wordByte_wordOfBytes]
  fin_cases b <;> rfl

/-- Settles O13: the lookup acts byte by byte; the examples are evaluated. -/
theorem subWordSubstitutesEachByte : Obligations.SubWordSubstitutesEachByte :=
  ⟨fun w => ⟨subWord w, returns_subWord rfl, wordByte_subWord w⟩, returns_subWord (by decide), returns_subWord (by decide),
    returns_subWord (by decide)⟩

/-! ## The transform -/

/-- The round constant stands in the top byte. -/
theorem rconW_eq_wordOfBytes (r : Fin 10) : rconW r = wordOfBytes (xtime^[r.val] 1) 0 0 0 :=
  congrArg (wordOfBytes · 0 0 0) (rconBytes_eq_iterate_xtime r)

theorem wordByte_kTransform (w : Word) (r : Fin 10) (b : Fin 4) :
    wordByte (kTransform w r) b = subst (wordByte w (b + 1)) ^^^ if b = 0 then xtime^[r.val] 1 else 0 := by
  rw [kTransform, wordByte_xor, wordByte_subWord, wordByte_rotWord, rconW_eq_wordOfBytes, wordByte_wordOfBytes]
  fin_cases b <;> rfl

/-- Settles O15: rotation, substitution and round constant, read byte by byte; the examples are evaluated. -/
theorem kTransformRotatesSubstitutesAdds : Obligations.KTransformRotatesSubstitutesAdds := by
  refine ⟨fun w r => ⟨kTransform w r, returns_kTransform rfl, ?_⟩, returns_kTransform (by decide),
    returns_kTransform (by decide), returns_kTransform (by decide), returns_kTransform (by decide)⟩
  simp [wordByte_kTransform]

/-! ## The schedule -/

theorem nextWord_eq_xor (i : Nat) (hi : i < 44) (prev back4 : Word) :
    nextWord i hi prev back4 = (if i % 4 = 0 then kTransform prev ⟨i / 4 - 1, by omega⟩ else prev) ^^^ back4 :=
  (apply_ite (· ^^^ back4) _ _ _).symm

/-- The recurrence of rule R154, of the whole schedule. -/
theorem kExpand_getElem_next (key : Block) (i : Nat) (hi : i < 44) (h4 : 4 ≤ i) :
    (kExpand key)[i] = nextWord i hi (kExpand key)[i - 1] (kExpand key)[i - 4] := by
  unfold kExpand
  exact scheduleWords_next key 40 (Nat.le_refl 40) i hi h4

/-- Settles O16: the first words are the key's, the others follow the recurrence, and the length is checked before. -/
theorem keyScheduleFollowsTheRecurrence : Obligations.KeyScheduleFollowsTheRecurrence := by
  refine ⟨fun key h => ⟨kExpand (blockOfList key h), returns_kExpand h, fun a ha => ?_, fun i hi h4 => ?_⟩,
    fun key h => raises_kExpand h⟩
  · rw [kExpand_getElem_key _ ⟨a, ha⟩]
    simp only [keyWord, blockByte_blockOfList]
  · rw [kExpand_getElem_next _ i hi h4, nextWord_eq_xor]

/-! ## Round keys -/

/-- Words laid one after the other keep their bytes: Word `a` holds the bytes from `4a` on. -/
theorem blockByte_append_words (w : Fin 4 → Word) (a b : Fin 4) :
    blockByte (w 0 ++ w 1 ++ w 2 ++ w 3) (streamIndex b a) = wordByte (w a) b := by
  apply BitVec.eq_of_getLsbD_eq
  intro i hi
  simp only [blockByte, wordByte, streamIndex, BitVec.getLsbD_extractLsb', BitVec.getLsbD_append]
  fin_cases a <;> fin_cases b <;> interval_cases i <;> simp

theorem blockByte_rKey (wd : Schedule) (r : Fin 11) (a b : Fin 4) :
    blockByte (rKey wd r) (streamIndex b a) = wordByte wd[4 * r.val + a.val] b := by
  have hread : blockByte (rKey wd r) (streamIndex b a) =
      wordByte wd[4 * r.val + (streamCol (streamIndex b a)).val] (streamRow (streamIndex b a)) :=
    blockByte_blockOfBytes _ _
  simpa only [streamCol_streamIndex, streamRow_streamIndex] using hread

theorem wordByte_keyWord (key : Block) (a b : Fin 4) : wordByte (keyWord key a) b = blockByte key (streamIndex b a) := by
  rw [keyWord, wordByte_wordOfBytes]
  fin_cases b <;> rfl

/-- Two blocks are equal when their bytes are, counted by Word and by byte within it. -/
theorem block_ext_wordBytes {x y : Block} (h : ∀ a b, blockByte x (streamIndex b a) = blockByte y (streamIndex b a)) :
    x = y :=
  block_ext_bytes fun n => streamIndex_row_col n ▸ h (streamCol n) (streamRow n)

theorem rKey_eq_append (wd : Schedule) (r : Fin 11) :
    rKey wd r = wd[4 * r.val] ++ wd[4 * r.val + 1] ++ wd[4 * r.val + 2] ++ wd[4 * r.val + 3] :=
  block_ext_wordBytes fun a b =>
    (blockByte_rKey wd r a b).trans (blockByte_append_words (fun a : Fin 4 => wd[4 * r.val + a.val]) a b).symm

theorem rKey_kExpand_zero (key : Block) : rKey (kExpand key) 0 = key :=
  block_ext_wordBytes fun a b => by
    have hword : (kExpand key)[4 * (0 : Fin 11).val + a.val] = keyWord key a := by
      simpa using kExpand_getElem_key key a
    rw [blockByte_rKey, hword, wordByte_keyWord]

/-- Settles O17: the four Words side by side have the bytes of the round key, and the first four Words are the key's. -/
theorem roundKeyIsFourWords : Obligations.RoundKeyIsFourWords :=
  ⟨fun wd r => ⟨returns_rKey (rKey_eq_append wd r), blockByte_rKey wd r⟩,
    fun key => returns_rKey (rKey_kExpand_zero key)⟩

end Sys2Proof.Machine
end

section
/-! PROOFS. The round transforms (`43_round_transforms.md`, rules R171 to R179): what each instruction returns and what each cell
of it is; a mix by the rows of its matrix. -/

namespace Sys2Proof.Machine

/-! ## What the instructions return -/

theorem returns_subBytes {x y : CipherState} (h : subBytes x = y) : Returns (.subBytes x) (.state y) := h ▸ fun _ => rfl

theorem returns_invSubBytes {x y : CipherState} (h : invSubBytes x = y) : Returns (.invSubBytes x) (.state y) :=
  h ▸ fun _ => rfl

theorem returns_shiftRows {x y : CipherState} (h : shiftRows x = y) : Returns (.shiftRows x) (.state y) :=
  h ▸ fun _ => rfl

theorem returns_invShiftRows {x y : CipherState} (h : invShiftRows x = y) : Returns (.invShiftRows x) (.state y) :=
  h ▸ fun _ => rfl

theorem returns_mixColumns {x y : CipherState} (h : mixColumns x = y) : Returns (.mixColumns x) (.state y) :=
  h ▸ fun _ => rfl

theorem returns_invMixColumns {x y : CipherState} (h : invMixColumns x = y) : Returns (.invMixColumns x) (.state y) :=
  h ▸ fun _ => rfl

theorem returns_addRoundKey {x y : CipherState} {rk : Block} (h : addRoundKey x rk = y) :
    Returns (.addRoundKey x rk) (.state y) := h ▸ fun _ => rfl

/-! ## The cells of the results -/

@[simp] theorem cell_subBytes (x : CipherState) (r c : Fin 4) : cell (subBytes x) r c = subst (cell x r c) := cell_ofCells ..

@[simp] theorem cell_invSubBytes (x : CipherState) (r c : Fin 4) : cell (invSubBytes x) r c = invSubst (cell x r c) :=
  cell_ofCells ..

@[simp] theorem cell_shiftRows (x : CipherState) (r c : Fin 4) : cell (shiftRows x) r c = cell x r (c + r) := cell_ofCells ..

@[simp] theorem cell_invShiftRows (x : CipherState) (r c : Fin 4) : cell (invShiftRows x) r c = cell x r (c - r) :=
  cell_ofCells ..

@[simp] theorem cell_addRoundKey (x : CipherState) (rk : Block) (r c : Fin 4) :
    cell (addRoundKey x rk) r c = cell x r c ^^^ blockByte rk (streamIndex r c) := cell_ofCells ..

theorem cell_mixBy (m : Fin 4 → Fin 4 → Byte) (x : CipherState) (i k : Fin 4) :
    cell (mixBy m x) i k = gfmul (m i 0) (cell x 0 k) ^^^ gfmul (m i 1) (cell x 1 k) ^^^ gfmul (m i 2) (cell x 2 k) ^^^
      gfmul (m i 3) (cell x 3 k) := cell_ofCells ..

/-! ## Inverses and lanes -/

@[simp] theorem subBytes_invSubBytes (x : CipherState) : subBytes (invSubBytes x) = x := CipherState.ext_cells (by simp)

@[simp] theorem shiftRows_invShiftRows (x : CipherState) : shiftRows (invShiftRows x) = x := CipherState.ext_cells (by simp)

@[simp] theorem mixColumns_invMixColumns (x : CipherState) : mixColumns (invMixColumns x) = x := by
  rw [mixColumns, invMixColumns, mixBy_mixBy, mix_mul_invMix, mixBy_identity]

/-- Settles O23: cell by cell for the substitutions, the shifts and the key addition; the mixes by the products of their
matrices. -/
theorem transformsHaveInverses : Obligations.TransformsHaveInverses := fun x rk =>
  ⟨invSubBytes_subBytes x, subBytes_invSubBytes x, invShiftRows_shiftRows x, shiftRows_invShiftRows x,
    invMixColumns_mixColumns x, mixColumns_invMixColumns x, addRoundKey_addRoundKey x rk⟩

/-- Rule R179: a mix works column by column. -/
theorem cell_mixBy_congr (m : Fin 4 → Fin 4 → Byte) {x y : CipherState} {k : Fin 4} (h : ∀ r, cell x r k = cell y r k)
    (i : Fin 4) : cell (mixBy m x) i k = cell (mixBy m y) i k := by
  simp only [cell_mixBy, h]

theorem subBytes_shiftRows (x : CipherState) : subBytes (shiftRows x) = shiftRows (subBytes x) :=
  CipherState.ext_cells (by simp)

theorem invSubBytes_invShiftRows (x : CipherState) : invSubBytes (invShiftRows x) = invShiftRows (invSubBytes x) :=
  CipherState.ext_cells (by simp)

/-- Settles O24: each output cell names the input cells it is made of. -/
theorem transformsActOnTheirLanes : Obligations.TransformsActOnTheirLanes := by
  refine ⟨fun x y k h r => ⟨cell_mixBy_congr readMix h r, cell_mixBy_congr readInvMix h r⟩, fun x y rk r c h => ?_,
    fun x => ⟨subBytes_shiftRows x, invSubBytes_invShiftRows x⟩⟩
  simp only [cell_subBytes, cell_invSubBytes, cell_addRoundKey, h, and_self]

/-! ## Substitution -/

/-- Settles O18: what the two substitutions return, cell by cell. -/
theorem subBytesActsOnEachCell : Obligations.SubBytesActsOnEachCell := fun x =>
  ⟨subBytes x, invSubBytes x, returns_subBytes rfl, returns_invSubBytes rfl,
    fun r c => ⟨cell_subBytes x r c, cell_invSubBytes x r c⟩⟩

/-! ## Shifts -/

/-- Where a cell moves to by `SHIFTROWS`, in rule R173's form with natural numbers. -/
theorem cell_shiftRows_moved (x : CipherState) (r c : Fin 4) :
    cell (shiftRows x) r ⟨(c.val + 4 - r.val) % 4, by omega⟩ = cell x r c := by
  have hsub : (⟨(c.val + 4 - r.val) % 4, by omega⟩ : Fin 4) = c - r := Fin.ext (by simp only [Fin.val_sub]; omega)
  rw [hsub, cell_shiftRows, sub_add_cancel]

/-- Where a cell moves to by `INVSHIFTROWS`, in rule R174's form with natural numbers. -/
theorem cell_invShiftRows_moved (x : CipherState) (r c : Fin 4) :
    cell (invShiftRows x) r ⟨(c.val + r.val) % 4, by omega⟩ = cell x r c := by
  rw [← Fin.add_def, cell_invShiftRows, add_sub_cancel_right]

/-- Settles O19: the place a cell moves to is read off the place it came from, and so is the permutation of the stream bytes, for
each of the 16 bytes. -/
theorem shiftRowsMovesTheCells : Obligations.ShiftRowsMovesTheCells := by
  refine fun x => ⟨shiftRows x, invShiftRows x, returns_shiftRows rfl, returns_invShiftRows rfl,
    fun r c => ⟨cell_shiftRows_moved x r c, cell_invShiftRows_moved x r c⟩, fun n => ?_⟩
  simp only [blockByte_unloadState, cell_shiftRows, cell_invShiftRows]
  fin_cases n <;> exact ⟨rfl, rfl⟩

/-! ## Mixes -/

/-- A matrix with rows that sum to 1 leaves a column of four equal bytes as it is. -/
theorem cell_mixBy_of_equal {m : Fin 4 → Fin 4 → Byte} (hm : ∀ i, m i 0 ^^^ m i 1 ^^^ m i 2 ^^^ m i 3 = 1#8) {x : CipherState}
    {k : Fin 4} (h1 : cell x 1 k = cell x 0 k) (h2 : cell x 2 k = cell x 0 k) (h3 : cell x 3 k = cell x 0 k) (i : Fin 4) :
    cell (mixBy m x) i k = cell x 0 k := by
  rw [cell_mixBy, h1, h2, h3, ← gfmul_xor_left, ← gfmul_xor_left, ← gfmul_xor_left, hm, one_gfmul]

theorem readMix_row_sum : ∀ i, readMix i 0 ^^^ readMix i 1 ^^^ readMix i 2 ^^^ readMix i 3 = 1#8 := by decide

theorem readInvMix_row_sum : ∀ i, readInvMix i 0 ^^^ readInvMix i 1 ^^^ readInvMix i 2 ^^^ readInvMix i 3 = 1#8 := by decide

theorem readMix_eq_ite : ∀ i j, readMix i j = if j = i then 0x02 else if j = i + 1 then 0x03 else 0x01 := by decide

/-- The factors of `MIX` as doublings: 2 on the diagonal, 3 next to it on the right, 1 elsewhere. -/
theorem gfmul_readMix (i j : Fin 4) (v : Byte) :
    gfmul (readMix i j) v = if j = i then xtime v else if j = i + 1 then xtime v ^^^ v else v := by
  rw [readMix_eq_ite]
  split_ifs
  exacts [two_gfmul v, three_gfmul v, one_gfmul v]

/-- Settles O20: each entry of a row of `MIX` is one of the three factors, and the rows sum to 1; the example is evaluated. -/
theorem mixColumnsMultipliesEachColumn : Obligations.MixColumnsMultipliesEachColumn := by
  refine ⟨fun x => ⟨mixColumns x, returns_mixColumns rfl, fun k => ?_⟩, returns_mixColumns (by decide +kernel)⟩
  refine ⟨?_, ?_, ?_, ?_, cell_mixBy_of_equal readMix_row_sum⟩ <;>
    simp [mixColumns, cell_mixBy, gfmul_readMix]

/-- Settles O21: the rows of the product are those of `INV_MIX`, and they sum to 1; the example is evaluated. -/
theorem invMixColumnsMultipliesEachColumn : Obligations.InvMixColumnsMultipliesEachColumn :=
  ⟨fun x => ⟨invMixColumns x, returns_invMixColumns rfl, fun k =>
      ⟨cell_mixBy readInvMix x 0 k, cell_mixBy readInvMix x 1 k, cell_mixBy readInvMix x 2 k, cell_mixBy readInvMix x 3 k,
        cell_mixBy_of_equal readInvMix_row_sum⟩⟩,
    returns_invMixColumns (by decide +kernel)⟩

/-! ## Key addition -/

/-- In stream order the key addition is a plain XOR. -/
theorem unloadState_addRoundKey (x : CipherState) (rk : Block) : unloadState (addRoundKey x rk) = unloadState x ^^^ rk :=
  block_ext_bytes fun n => by simp

theorem addRoundKey_zero (x : CipherState) : addRoundKey x 0 = x :=
  CipherState.ext_cells fun r c => by simp [blockByte]

/-- Settles O22: cell by cell, and the cells in stream order are the bytes; the example is evaluated. -/
theorem addRoundKeyXorsInStreamOrder : Obligations.AddRoundKeyXorsInStreamOrder :=
  ⟨fun x rk => ⟨addRoundKey x rk, returns_addRoundKey rfl, fun a b => cell_addRoundKey x rk b a,
      unloadState_addRoundKey x rk, returns_addRoundKey (addRoundKey_addRoundKey x rk),
      returns_addRoundKey (addRoundKey_zero x)⟩,
    returns_addRoundKey (by decide +kernel)⟩

end Sys2Proof.Machine
end

section
/-! PROOFS. The primitives of the fifth family (`44_cipher_engine.md`, rules R200 to R203, R218): what `LOAD`, `UNLOAD` and the
two whole-block functions return, the States the latter go through, and that each undoes the other. -/

namespace Sys2Proof.Machine

/-! ## What the instructions return -/

theorem returns_load {b : List Byte} (h : b.length = 16) :
    Returns (.load b) (.state (loadBlock (blockOfList b h))) := fun s => by
  simp only [exec, execLoad, checkBytes_of_length h, returnValue_eq]

theorem raises_load {b : List Byte} (h : b.length ≠ 16) : Raises (.load b) .invalidLength := fun s => by
  simp only [exec, execLoad, checkBytes_of_length_ne h, raiseError_eq]

theorem returns_unload {x : CipherState} {u : Block} (h : unloadState x = u) : Returns (.unload x) (.block u) :=
  h ▸ fun _ => rfl

theorem blockNumbers_map_ofNat (x : Block) : (blockNumbers x).map (BitVec.ofNat 8) = blockBytes x := by
  rw [blockNumbers, List.map_map]
  exact (List.map_congr_left fun b _ => BitVec.ofNat_toNat 8 b).trans (List.map_id _)

@[simp] theorem blockNumbers_length (x : Block) : (blockNumbers x).length = 16 := by simp [blockNumbers]

theorem le_of_mem_blockNumbers {x : Block} {n : Nat} (h : n ∈ blockNumbers x) : n ≤ 255 := by
  obtain ⟨b, -, rfl⟩ := List.mem_map.1 h
  have := b.isLt
  omega

/-- The byte sequences of two blocks pass the boundary (rules R241, R242) and arrive as the blocks themselves. -/
theorem checkOperands_blockNumbers (b key : Block) : checkOperands (blockNumbers b) (blockNumbers key) = .ok (b, key) := by
  have hbytes : ∀ n, n ∈ blockNumbers b ∨ n ∈ blockNumbers key → n ≤ 255 := by
    rintro n (h | h) <;> exact le_of_mem_blockNumbers h
  rw [checkOperands_ok (blockNumbers_length b) (blockNumbers_length key) hbytes]
  simp only [blockNumbers_map_ofNat, blockOfList_blockBytes]

theorem returns_encryptBlock {p key c : Block} (h : encryptBlock p key = c) :
    Returns (.encryptBlock (blockNumbers p) (blockNumbers key)) (.block c) := fun s => by
  simp only [exec, execEncryptBlock, checkOperands_blockNumbers, returnValue_eq, h]

theorem returns_decryptBlock {c key p : Block} (h : decryptBlock c key = p) :
    Returns (.decryptBlock (blockNumbers c) (blockNumbers key)) (.block p) := fun s => by
  simp only [exec, execDecryptBlock, checkOperands_blockNumbers, returnValue_eq, h]

theorem raises_encryptBlock {p key : List Nat} (h : p.length ≠ 16 ∨ key.length ≠ 16) :
    Raises (.encryptBlock p key) .invalidLength := fun s => by
  simp only [exec, execEncryptBlock, checkOperands_of_length_ne h, raiseError_eq]

theorem raises_decryptBlock {c key : List Nat} (h : c.length ≠ 16 ∨ key.length ≠ 16) :
    Raises (.decryptBlock c key) .invalidLength := fun s => by
  simp only [exec, execDecryptBlock, checkOperands_of_length_ne h, raiseError_eq]

/-- On the bytes of a block `KEXPAND` and `LOAD` find the block again. -/
theorem returns_kExpand_blockBytes (key : Block) : Returns (.kExpand (blockBytes key)) (.schedule (kExpand key)) := by
  simpa only [blockOfList_blockBytes] using returns_kExpand (blockBytes_length key)

theorem returns_load_blockBytes (b : Block) : Returns (.load (blockBytes b)) (.state (loadBlock b)) := by
  simpa only [blockOfList_blockBytes] using returns_load (blockBytes_length b)

theorem blockBytes_blockOfList (b : List Byte) (h : b.length = 16) : blockBytes (blockOfList b h) = b := by
  refine List.ext_getElem (by rw [blockBytes_length, h]) fun n hn _ => ?_
  simp only [blockBytes, List.getElem_ofFn, blockByte_blockOfList]

/-! ## `LOAD` and `UNLOAD` -/

/-- Settles O25: both are read cell by cell, and each undoes the other on blocks, of which a sequence of 16 bytes is one. -/
theorem loadAndUnloadAreColumnMajor : Obligations.LoadAndUnloadAreColumnMajor := by
  refine ⟨fun b h => ⟨_, returns_load h, fun row col => ?_, _, returns_unload rfl, ?_⟩,
    fun x => ⟨unloadState x, returns_unload rfl, blockByte_unloadState x, ?_⟩, fun b h => raises_load h⟩
  · rw [cell_loadBlock, blockByte_blockOfList]
    rfl
  · rw [unloadState_loadBlock, blockBytes_blockOfList]
  · simpa only [loadBlock_unloadState] using returns_load_blockBytes (unloadState x)

/-! ## The States of a whole-block function -/

/-- The State after step `j` of the sequence 0..10 of round-key additions (step 2, the nine times of step 3 and step 4 of
rules R202 and R203). -/
def stateAt (d : Direction) (block key : Block) (j : Fin 11) : CipherState :=
  if j = 10 then finalFn d (stateAfter d block key 9) (rKey (kExpand key) (roundIndex d 10)) else stateAfter d block key j.val

theorem stateAt_round (d : Direction) (block key : Block) {j : Fin 11} (h1 : 1 ≤ j) (h9 : j ≤ 9) :
    stateAt d block key j = roundFn d (stateAt d block key (j - 1)) (rKey (kExpand key) (roundIndex d j.val)) := by
  have before : ∀ j : Fin 11, 1 ≤ j → j ≤ 9 → j ≠ 10 ∧ j - 1 ≠ 10 ∧ j.val = (j - 1).val + 1 := by decide
  obtain ⟨hj, hj', hval⟩ := before j h1 h9
  rw [stateAt, if_neg hj, stateAt, if_neg hj', hval]
  rfl

theorem unloadState_stateAt (d : Direction) (block key : Block) :
    unloadState (stateAt d block key 10) = cryptBlock d block key := unloadState_finalFn d block key

/-- Settles O26: the States of an encryption, in the order of their round keys. -/
theorem encryptBlockFollowsTheRounds : Obligations.EncryptBlockFollowsTheRounds := by
  refine ⟨fun p key => ⟨encryptBlock p key, kExpand key, stateAt .encrypt p key, returns_encryptBlock rfl,
    returns_kExpand_blockBytes key, rfl, fun i h1 h9 => ?_, rfl, (unloadState_stateAt .encrypt p key).symm⟩,
    fun p key h => raises_encryptBlock h⟩
  have hkey : roundIndex .encrypt i.val = i := Fin.ofNat_val_eq_self i
  have hround := stateAt_round .encrypt p key h1 h9
  rwa [hkey] at hround

/-- Settles O27: the States of a decryption, in the opposite order of their round keys. -/
theorem decryptBlockFollowsTheRounds : Obligations.DecryptBlockFollowsTheRounds := by
  refine ⟨fun c key => ⟨decryptBlock c key, kExpand key, fun i => stateAt .decrypt c key i.rev, returns_decryptBlock rfl,
    returns_kExpand_blockBytes key, rfl, fun i h1 h9 => ?_, rfl, (unloadState_stateAt .decrypt c key).symm⟩,
    fun c key h => raises_decryptBlock h⟩
  have reversed : ∀ i : Fin 11, 1 ≤ i → i ≤ 9 →
      1 ≤ i.rev ∧ i.rev ≤ 9 ∧ i.rev - 1 = (i + 1).rev ∧ roundIndex .decrypt i.rev.val = i := by decide
  obtain ⟨hr1, hr9, hprev, hkey⟩ := reversed i h1 h9
  have hround := stateAt_round .decrypt c key hr1 hr9
  rwa [hprev, hkey] at hround

/-! ## Round trip -/

/-- `ENCRYPTBLOCK` under one key is injective, since it is undone, and an injective map of blocks to blocks is onto. -/
theorem encryptBlock_decryptBlock (b key : Block) : encryptBlock (decryptBlock b key) key = b := by
  have hfin : Finite Block := .of_injective BitVec.toFin fun _ _ => BitVec.eq_of_toFin_eq
  have hundone : Function.LeftInverse (decryptBlock · key) (encryptBlock · key) := fun b => decryptBlock_encryptBlock b key
  exact hundone.rightInverse_of_surjective (Finite.surjective_of_injective hundone.injective) b

/-- Settles O29: each function undoes the other, and the instructions return their values. -/
theorem decryptionUndoesEncryption : Obligations.DecryptionUndoesEncryption := fun b key =>
  ⟨_, _, returns_encryptBlock rfl, returns_decryptBlock (decryptBlock_encryptBlock b key), returns_decryptBlock rfl,
    returns_encryptBlock (encryptBlock_decryptBlock b key)⟩

/-- The known-answer vector of rule R218. -/
theorem encryptBlock_knownAnswer : encryptBlock 0x3243f6a8885a308d313198a2e0370734 0x2b7e151628aed2a6abf7158809cf4f3c
    = 0x3925841d02dc09fbdc118597196a0b32 := by decide +kernel

/-- Settles O28: three encryptions and decryptions are evaluated; the known answer's decryption is its round trip. -/
theorem knownAnswerVectorHolds : Obligations.KnownAnswerVectorHolds :=
  ⟨returns_encryptBlock encryptBlock_knownAnswer,
    returns_decryptBlock (by rw [← encryptBlock_knownAnswer, decryptBlock_encryptBlock]),
    returns_encryptBlock (by decide +kernel), returns_decryptBlock (by decide +kernel)⟩

end Sys2Proof.Machine
end

section
/-! PROOFS. The commands and the micro-operations (`44_cipher_engine.md`, rules R204 to R213): the next state of each as a
whole, from `Effect.exec_eq`. -/

namespace Sys2Proof.Machine

/-! ## Commands -/

theorem busy_of_accept {i : Instr} {s t : State} {d : Direction} {key block : Block}
    (hx : exec i s = .next (s.accept d key block)) (ht : exec i s = .next t) : busy t = true := by
  rw [← Host.Outcome.next.inj (hx.symm.trans ht)]
  rfl

/-- Settles O31: acceptance in an idle engine, no effect in a busy one. -/
theorem encIsAcceptedWhenIdle : Obligations.EncIsAcceptedWhenIdle := by
  refine fun s key block => ⟨fun hi => ?_, fun hb dir => (Effect.encIgnored hb key block).exec_eq⟩
  have hx : exec (.enc key block) s = .next (s.accept .encrypt key block) := (Effect.encAccepted hi key block).exec_eq
  exact ⟨loadBlock block, hx, cell_loadBlock block, fun _ => busy_of_accept hx⟩

/-- Settles O32: acceptance in an idle engine, no effect in a busy one. -/
theorem decIsAcceptedWhenIdle : Obligations.DecIsAcceptedWhenIdle := by
  refine fun s key block => ⟨fun hi => ?_, fun hb dir => (Effect.decIgnored hb key block).exec_eq⟩
  have hx : exec (.dec key block) s = .next (s.accept .decrypt key block) := (Effect.decAccepted hi key block).exec_eq
  exact ⟨loadBlock block, hx, cell_loadBlock block, fun _ => busy_of_accept hx⟩

/-- While the engine is busy a line without `rst` is used up, and nothing of it reaches the engine (rules R206, R275). -/
theorem step_of_busy_drive {s : State} (hb : s.phase ≠ .idle) {pins : BitVec 3} (hr : pins.getLsbD 2 = false)
    (key block : Operand) (rest : List HostLine) :
    step { s with lines := .drive pins key block :: rest } = engineStep (s.consume rest) :=
  step_of_busy (s := { s with lines := .drive pins key block :: rest }) rfl hr hb

/-- Settles O33: an ignored command leaves the state as it is, and a busy engine's step is its own. -/
theorem nopAndIgnoredStartsChangeNothing : Obligations.NopAndIgnoredStartsChangeNothing := by
  refine fun s key block dir => ⟨rfl, fun hb => ⟨(Effect.encIgnored hb key block).exec_eq,
    (Effect.decIgnored hb key block).exec_eq, fun p p' k b k' b' rest hp hp' => ?_⟩⟩
  rw [step_of_busy_drive hb hp, step_of_busy_drive hb hp']

/-! ## Micro-operations -/

theorem kExpand_example : (kExpand 0x2b7e151628aed2a6abf7158809cf4f3c)[4] = 0xa0fafe17 ∧
    (kExpand 0x2b7e151628aed2a6abf7158809cf4f3c)[43] = 0xb6630ca6 := by decide +kernel

/-- Settles O36: `EXPAND` writes what `KEXPAND` returns for `KEY`; the example is evaluated. -/
theorem expandWritesTheSchedule : Obligations.ExpandWritesTheSchedule := by
  refine ⟨fun s => ⟨kExpand s.key, returns_kExpand_blockBytes s.key, fun d => ⟨_, rfl⟩⟩, fun s t hk ht => ?_⟩
  have hx : exec (.expand s.dir) s = .next (s.writeSchedule (kExpand s.key)) := rfl
  rw [← Host.Outcome.next.inj (hx.symm.trans ht), State.writeSchedule_w, hk]
  exact kExpand_example

/-- Settles O37: the two effects; round key 0 is the key, and in stream order its addition is a plain XOR. -/
theorem initAddsItsRoundKey : Obligations.InitAddsItsRoundKey := by
  intro s
  have henc (hr : s.rnd = 0) : exec .encInit s = .next (s.writeRound (addRoundKey s.st (rKey s.w 0)) .main 1) :=
    hr ▸ (Effect.encInit hr).exec_eq
  have hdec (hr : s.rnd = 10) : exec .decInit s = .next (s.writeRound (addRoundKey s.st (rKey s.w 10)) .main 9) :=
    hr ▸ (Effect.decInit hr).exec_eq
  refine ⟨henc, hdec, fun hr hw t ht => ?_⟩
  rw [← Host.Outcome.next.inj ((henc hr).symm.trans ht), State.writeRound_st, unloadState_addRoundKey, hw,
    rKey_kExpand_zero]

/-- Settles O38: the two effects; `RND` counts within its range. -/
theorem mainRoundsTransformAndCount : Obligations.MainRoundsTransformAndCount := by
  intro s h1 h9
  have count : ∀ r : Fin 11, 1 ≤ r → r ≤ 9 → (r + 1).val = r.val + 1 ∧ (r - 1).val = r.val - 1 := by decide
  obtain ⟨hup, hdown⟩ := count s.rnd h1 h9
  exact ⟨⟨s.rnd + 1, hup, (Effect.encRound ⟨h1, h9⟩).exec_eq⟩, ⟨s.rnd - 1, hdown, (Effect.decRound ⟨h1, h9⟩).exec_eq⟩⟩

/-- Settles O39: the two effects, with the round key of the only `RND` at which they occur. -/
theorem finalRoundsSetDone : Obligations.FinalRoundsSetDone := by
  intro s
  have henc (hr : s.rnd = 10) : exec .encFinal s = .next (s.finish (encFinalFn s.st (rKey s.w 10))) :=
    hr ▸ (Effect.encFinal hr).exec_eq
  have hdec (hr : s.rnd = 0) : exec .decFinal s = .next (s.finish (decFinalFn s.st (rKey s.w 0))) :=
    hr ▸ (Effect.decFinal hr).exec_eq
  exact ⟨henc, hdec⟩

end Sys2Proof.Machine
end

section
/-! PROOFS. The step and the control transfers (`44_cipher_engine.md`, rules R214 and R215). -/

namespace Sys2Proof.Machine

/-! ## What a step performs -/

theorem decodeMicroOp_eq_ok_iff {d : Direction} {p : Phase} {u : Instr} :
    decodeMicroOp (microOpWord d p) = .ok u ↔ pendingMicroOp d p = some u := by
  rw [decodeMicroOp_microOpWord]
  cases pendingMicroOp d p <;> simp

section
variable {s : State} {pins : BitVec 3} {key block : Operand} {rest : List HostLine}
  (hp : present s.done s.lines = (.pins pins key block, rest))
include hp

/-- The pending micro-operation at its tick, whatever the host presents but `RST` (rule R215). -/
theorem step_of_pendingMicroOp (hr : pins.getLsbD 2 = false) (hb : s.phase ≠ .idle) (hs : s.stallsLeft = 0) {u : Instr}
    (hu : pendingMicroOp s.dir s.phase = some u) : step s = armNext (exec u (s.consume rest)) := by
  rw [step_of_busy hp hr hb]
  exact engineStep_of_pending (s := s.consume rest) hs hu

/-- A stall: the host's line is used up (rule R215). -/
theorem step_of_stall (hr : pins.getLsbD 2 = false) (hb : s.phase ≠ .idle) (hs : s.stallsLeft ≠ 0) :
    step s = .next (s.consume rest).stall := by
  rw [step_of_busy hp hr hb]
  exact engineStep_of_stall (s := s.consume rest) hs

/-- `RST` on the ports, in any state (rule R270). -/
theorem step_of_rst (hr : pins.getLsbD 2 = true) : step s = .next (s.consume rest).resetRegs.arm := by
  have hmask : ∀ p : BitVec 3, p.getLsbD 2 = true → p &&& 0b100#3 = 0b100#3 := by decide
  rw [step_of_command hp (.inl hr), decodeCommand_of_rst (by rw [presentedWord, pins_commandWord, hmask pins hr])]
  rfl

end

/-- Settles O45: the three kinds of tick; `State.consume` and `armNext` are what the step adds. -/
theorem stepPerformsTheDecodedInstruction : Obligations.StepPerformsTheDecodedInstruction := fun _ _ _ _ _ hp =>
  ⟨step_of_command hp, fun hr hb hs _ hu => step_of_pendingMicroOp hp hr hb hs (decodeMicroOp_eq_ok_iff.1 hu),
    step_of_stall hp⟩

/-! ## Control transfers -/

/-- From a state of the invariant the pending micro-operation completes, and takes its row of the table of rule R214. -/
theorem State.Inv.pending_follows_table {s : State} (hi : s.Inv) (hb : s.phase ≠ .idle) :
    ∃ i u, pendingMicroOp s.dir s.phase = some i ∧ exec i s = .next u ∧
      (u.phase, u.rnd.val) = positionAfter s.phase s.dir s.rnd.val ∧ u.dir = s.dir ∧
      (u.done = true ↔ s.phase = .final) := by
  have hd : s.done = false := hi.done_eq_false hb
  cases hp : s.phase with
  | idle => exact absurd hp hb
  | expand => exact ⟨_, _, rfl, (Effect.expand s.dir).exec_eq, rfl, rfl, by simp [hd]⟩
  | init =>
    have hr := hi.rnd_of_init hp
    cases hdir : s.dir with
    | encrypt => exact ⟨_, _, rfl, (Effect.encInit (by rw [hr, hdir]; rfl)).exec_eq, rfl, hdir, by simp [hd]⟩
    | decrypt => exact ⟨_, _, rfl, (Effect.decInit (by rw [hr, hdir]; rfl)).exec_eq, rfl, hdir, by simp [hd]⟩
  | main =>
    have hr := hi.rnd_of_main hp
    cases hdir : s.dir with
    | encrypt =>
      have row : ∀ r : Fin 11, 1 ≤ r ∧ r ≤ 9 →
        (if r = 9 then Phase.final else .main, (r + 1).val) = positionAfter .main .encrypt r.val := by decide
      exact ⟨_, _, rfl, (Effect.encRound hr).exec_eq, row s.rnd hr, hdir, by simp [hd]⟩
    | decrypt =>
      have row : ∀ r : Fin 11, 1 ≤ r ∧ r ≤ 9 →
        (if r = 1 then Phase.final else .main, (r - 1).val) = positionAfter .main .decrypt r.val := by decide
      exact ⟨_, _, rfl, (Effect.decRound hr).exec_eq, row s.rnd hr, hdir, by simp [hd]⟩
  | final =>
    have hr := hi.rnd_of_final hp
    cases hdir : s.dir with
    | encrypt => exact ⟨_, _, rfl, (Effect.encFinal (by rw [hr, hdir]; rfl)).exec_eq, rfl, hdir, by simp⟩
    | decrypt => exact ⟨_, _, rfl, (Effect.decFinal (by rw [hr, hdir]; rfl)).exec_eq, rfl, hdir, by simp⟩

/-- The pending micro-operation at its tick, in a state of the invariant (rule R215). -/
theorem State.Inv.step_of_pending {s : State} (hi : s.Inv) {pins : BitVec 3} {key block : Operand} {rest : List HostLine}
    (hp : present s.done s.lines = (.pins pins key block, rest)) (hr : pins.getLsbD 2 = false) (hb : s.phase ≠ .idle)
    (hs : s.stallsLeft = 0) :
    ∃ t, step s = .next t ∧ (t.phase, t.rnd.val) = positionAfter s.phase s.dir s.rnd.val ∧ t.dir = s.dir ∧
      (t.done = true ↔ s.phase = .final) := by
  obtain ⟨i, u, hpend, hx, hrow⟩ := (hi.consume rest).pending_follows_table hb
  refine ⟨u.arm, ?_, hrow⟩
  rw [step_of_pendingMicroOp hp hr hb hs hpend, hx]
  rfl

/-- A command always completes, accepted or ignored. -/
theorem exec_decodeCommand_next (w : CommandWord) (s : State) : ∃ t, exec (decodeCommand w) s = .next t := by
  obtain ⟨st, d, h⟩ | ⟨d, h⟩ | ⟨k, b, h | h⟩ := decodeCommand_cases w <;> rw [h]
  · exact ⟨_, rfl⟩
  · exact ⟨_, rfl⟩
  · by_cases hi : s.phase = .idle
    · exact ⟨_, (Effect.encAccepted hi k b).exec_eq⟩
    · exact ⟨_, (Effect.encIgnored hi k b).exec_eq⟩
  · by_cases hi : s.phase = .idle
    · exact ⟨_, (Effect.decAccepted hi k b).exec_eq⟩
    · exact ⟨_, (Effect.decIgnored hi k b).exec_eq⟩

/-- From a state of the invariant a step with pins presented gives a next state. -/
theorem State.Inv.exists_step {s : State} (hi : s.Inv) {pins : BitVec 3} {key block : Operand} {rest : List HostLine}
    (hp : present s.done s.lines = (.pins pins key block, rest)) : ∃ t, step s = .next t := by
  by_cases hc : pins.getLsbD 2 = true ∨ s.phase = .idle
  · obtain ⟨u, hu⟩ := exec_decodeCommand_next (presentedWord s pins key block) (s.consume rest)
    exact ⟨u.arm, by rw [step_of_command hp hc, hu]; rfl⟩
  · obtain ⟨hr, hb⟩ := not_or.1 hc
    rw [Bool.not_eq_true] at hr
    by_cases hs : s.stallsLeft = 0
    · obtain ⟨t, ht, -⟩ := hi.step_of_pending hp hr hb hs
      exact ⟨t, ht⟩
    · exact ⟨_, step_of_stall hp hr hb hs⟩

/-- Settles O47: a step there is, and each row names the step that it is. -/
theorem controlFollowsTheTable : Obligations.ControlFollowsTheTable := by
  intro s pins k b rest hi hl
  have hp : present s.done s.lines = (.pins pins k b, rest) := by rw [hl]; rfl
  obtain ⟨t, ht⟩ := hi.exists_step hp
  have is_step {u : State} (hu : step s = .next u) : t = u := Host.Outcome.next.inj (ht.symm.trans hu)
  refine ⟨t, ht, fun hr => ?_, fun hpins hidle => ?_, fun hpins hidle => ?_, fun hpins hidle => ?_, fun hr hb hs => ?_,
    fun hr hb hs => ?_⟩
  · obtain rfl := is_step (step_of_rst hp hr)
    exact ⟨rfl, rfl, rfl⟩
  · subst hpins
    obtain rfl := is_step (step_of_start (d := .encrypt) hidle hp)
    exact ⟨rfl, rfl, rfl⟩
  · subst hpins
    obtain rfl := is_step (step_of_start (d := .decrypt) hidle hp)
    exact ⟨rfl, rfl, rfl⟩
  · obtain rfl := is_step (step_of_nop hp hpins hidle)
    exact ⟨hidle, rfl, rfl, rfl, rfl⟩
  · obtain ⟨u, hu, hrow⟩ := hi.step_of_pending hp hr hb hs
    rwa [is_step hu]
  · obtain rfl := is_step (step_of_stall hp hr hb hs)
    exact ⟨rfl, rfl, rfl, rfl, rfl, rfl, rfl⟩

end Sys2Proof.Machine
end

section
/-! PROOFS. Rules R216, R217 and R277: an accepted operation as one run, from the acceptance tick to its result. -/

namespace Sys2Proof.Machine

/-- At each step of such a run but the last state the engine is busy and without a result. -/
theorem RunsBusy.busy_before {n : Nat} {s t : State} (h : RunsBusy n s t) {m : Nat} (hm : m < n) :
    ∃ u, Host.Core.run Sys2Proof.core m s = .next u ∧ u.done = false ∧ busy u = true := by
  induction h generalizing m with
  | refl => exact absurd hm (Nat.not_lt_zero m)
  | @step n s u t hd hb hs hr ih =>
    cases m with
    | zero => exact ⟨s, rfl, hd, (busy_eq_true_iff s).2 hb⟩
    | succ m => rw [run_succ_of_next hs]; exact ih (Nat.lt_of_succ_lt_succ hm)

/-- A started operation is busy at every step up to its last, and at that one it has its result (`operation_ends`, as a run of
the machine). -/
theorem run_of_operation {s : State} {d : Direction} {key block : Block} {rest : List HostLine} (hi : s.phase = .idle)
    (hl : s.lines = .drive (startPins d) (.literal key) (.literal block) :: rest) (hq : ∀ l ∈ rest, l.quiet = true) :
    (∃ t : State, Host.Core.run Sys2Proof.core (operationSteps s d key) s = .next t ∧
      t.done = true ∧ t.phase = .idle ∧ t.rnd = roundIndex d 10 ∧ t.dir = d ∧ t.key = key ∧ t.w = kExpand key ∧
      unloadState t.st = cryptBlock d block key ∧ blockOut t = cryptBlock d block key) ∧
    (∀ n, 0 < n → n < operationSteps s d key → ∃ t : State,
      Host.Core.run Sys2Proof.core n s = .next t ∧ t.done = false ∧ busy t = true) := by
  obtain ⟨u, t, n, hs, -, hr, hn, x, ht, hx⟩ := operation_ends hi (by rw [hl]; rfl) hq
  rw [← show n + 1 = operationSteps s d key from hn]
  constructor
  · have hd : t.done = true := by rw [ht.done, (busy_eq_false_iff t).2 ht.phase]; rfl
    have hst : unloadState t.st = cryptBlock d block key := by rw [ht.st]; exact hx
    exact ⟨t, by rw [run_succ_of_next hs, hr.run_eq], hd, ht.phase, ht.rnd, ht.dir, ht.key, ht.w (by simp), hst,
      (blockOut_of_done hd).trans hst⟩
  · intro m hm0 hm
    obtain ⟨m, rfl⟩ := Nat.exists_eq_add_one.2 hm0
    rw [run_succ_of_next hs]
    exact hr.busy_before (by omega)

/-- Settles O57: the operation of `ENC`. -/
theorem encryptionEndsWithItsResult : Obligations.EncryptionEndsWithItsResult := fun _ _ _ _ hi hl hq =>
  run_of_operation (d := .encrypt) hi hl hq

/-- Settles O58: the operation of `DEC`. -/
theorem decryptionEndsWithItsResult : Obligations.DecryptionEndsWithItsResult := fun _ _ _ _ hi hl hq =>
  run_of_operation (d := .decrypt) hi hl hq

end Sys2Proof.Machine
end

section
/-! PROOFS. `60_exceptions.md` (rules R241 to R247): the two errors of the byte-sequence boundary, and the step that has no fault
outcome. -/

namespace Sys2Proof.Machine

/-! ## Errors of the byte-sequence boundary -/

/-- What the boundary refuses, both block functions refuse, before any transform (rule R244). -/
theorem blockFunctions_raise {b key : List Nat} {e : BoundaryError} (h : checkOperands b key = .error e) :
    Raises (.encryptBlock b key) e ∧ Raises (.decryptBlock b key) e :=
  ⟨fun s => by simp only [exec, execEncryptBlock, h, raiseError_eq],
    fun s => by simp only [exec, execDecryptBlock, h, raiseError_eq]⟩

/-- What the boundary lets pass, both block functions turn into a block (rule R247). -/
theorem blockFunctions_return {b key : List Nat} {x k : Block} (h : checkOperands b key = .ok (x, k)) :
    Returns (.encryptBlock b key) (.block (encryptBlock x k)) ∧ Returns (.decryptBlock b key) (.block (decryptBlock x k)) :=
  ⟨fun s => by simp only [exec, execEncryptBlock, h, returnValue_eq],
    fun s => by simp only [exec, execDecryptBlock, h, returnValue_eq]⟩

/-- Settles O30: the three outcomes of the boundary, each handed on by both block functions. -/
theorem operandErrorsComeInTheirOrder : Obligations.OperandErrorsComeInTheirOrder := fun _ _ =>
  ⟨fun hlen => blockFunctions_raise (checkOperands_of_length_ne hlen),
    fun hb hk hdomain => blockFunctions_raise (checkOperands_of_domain hb hk hdomain),
    fun hb hk hbytes => ⟨_, _, blockFunctions_return (checkOperands_ok hb hk hbytes)⟩⟩

/-! ## No fault outcome -/

/-- A host that only drives the pins presents pins: `WAIT` and `RTRIP` are ticks too (rule R89). -/
theorem present_of_drives {done : Bool} {lines : List HostLine} (h : ∀ l ∈ lines, l.drives = true) :
    ∃ pins key block rest, present done lines = (.pins pins key block, rest) := by
  induction lines with
  | nil => exact ⟨_, _, _, _, rfl⟩
  | cons l rest ih =>
    obtain ⟨hl, hrest⟩ := List.forall_mem_cons.1 h
    cases l with
    | drive pins key block => exact ⟨_, _, _, _, rfl⟩
    | wait =>
      cases done with
      | true => exact ih hrest
      | false => exact ⟨_, _, _, _, rfl⟩
    | rtrip key block => exact ⟨_, _, _, _, rfl⟩
    | call p => cases hl

/-- A call completes, or is refused as no instruction; it never faults, in any state. -/
theorem callStep_ne_fault (p : PrimCall) (s : State) (f : Fault) : callStep p s ≠ .fault f := by
  cases hdec : decodePrimitive p with
  | error e => simp [callStep, hdec]
  | ok i =>
    obtain ⟨r, hr⟩ := exec_primitive (isPrimitive_of_decodePrimitive hdec) s
    simp [callStep, hdec, hr]

/-- From a state of the invariant a step does not fault: with pins presented it completes, and a call never faults. -/
theorem State.Inv.step_ne_fault {s : State} (hi : s.Inv) (f : Fault) : step s ≠ .fault f := by
  rcases hp : present s.done s.lines with ⟨⟨pins, key, block⟩ | ⟨p⟩, rest⟩
  · obtain ⟨t, ht⟩ := hi.exists_step hp
    simp [ht]
  · rw [step_of_call hp]
    exact callStep_ne_fault p _ f

/-- Settles O56: no fault whatever is presented, and a host that only drives the pins presents pins, at which a step
completes. -/
theorem noStepFaults : Obligations.NoStepFaults := by
  refine fun s hi => ⟨hi.step_ne_fault, fun hdrives => ?_⟩
  obtain ⟨pins, key, block, rest, hp⟩ := present_of_drives (done := s.done) hdrives
  exact hi.exists_step hp

end Sys2Proof.Machine
end

section
/-! PROOFS. `70_reset_and_hazards.md` (rules R270, R280 and R282): the reset operation, and the control of two engines that
hold different data. -/

namespace Sys2Proof.Machine

/-- Settles O34: `RST` performs `State.resetRegs`, which writes these registers and the four data registers only. -/
theorem rstSetsTheControlRegisters : Obligations.RstSetsTheControlRegisters := fun s start dir =>
  ⟨s.resetRegs, (Effect.rst start dir).exec_eq, s.resetRegs_phase, s.resetRegs_rnd, s.resetRegs_done,
    (busy_eq_false_iff _).2 s.resetRegs_phase, s.resetRegs_ksCache, rfl⟩

/-! ## What two hosts present -/

/-- Two hosts present the same pins or the same call, whatever the operands on the ports, and again have such lines left. -/
inductive PresentsAlike : Presented × List HostLine → Presented × List HostLine → Prop
  | pins (pins : BitVec 3) (key block key' block' : Operand) {rest rest' : List HostLine}
      (hl : List.Forall₂ SamePins rest rest') : PresentsAlike (.pins pins key block, rest) (.pins pins key' block', rest')
  | call (p : PrimCall) {rest rest' : List HostLine} (hl : List.Forall₂ SamePins rest rest') :
      PresentsAlike (.call p, rest) (.call p, rest')

theorem PresentsAlike.lines {x x' : Presented × List HostLine} (h : PresentsAlike x x') : List.Forall₂ SamePins x.2 x'.2 := by
  cases h <;> assumption

/-- A `WAIT` that is over is no tick for either host, so the lines behind it decide (rule R89). -/
theorem present_alike (done : Bool) {lines lines' : List HostLine} (hl : List.Forall₂ SamePins lines lines') :
    PresentsAlike (present done lines) (present done lines') := by
  induction hl with
  | nil => exact .pins _ _ _ _ _ .nil
  | @cons l l' rest rest' h hrest ih =>
    match l, l', h with
    | .drive pins _ _, .drive _ _ _, rfl => exact .pins _ _ _ _ _ hrest
    | .wait, .wait, _ =>
      cases done with
      | true => exact ih
      | false => exact .pins _ _ _ _ _ (.cons trivial hrest)
    | .rtrip _ _, .rtrip _ _, _ => exact .pins _ _ _ _ _ (.cons trivial (.cons rfl (.cons trivial hrest)))
    | .call p, .call _, rfl => exact .call p hrest

/-! ## Instructions with other operands -/

/-- The same instruction, but for the operands of a command on the ports. -/
inductive SameOperation : Instr → Instr → Prop
  | refl (i : Instr) : SameOperation i i
  | enc (key block key' block' : Block) : SameOperation (.enc key block) (.enc key' block')
  | dec (key block key' block' : Block) : SameOperation (.dec key block) (.dec key' block')

theorem sameOperation_decodeCommand {w w' : CommandWord} (h : w'.pins = w.pins) :
    SameOperation (decodeCommand w) (decodeCommand w') := by
  simp only [decodeCommand, h]
  split
  · exact .refl _
  · split
    · split
      · exact .enc ..
      · exact .dec ..
    · exact .refl _

theorem decodeCommand_ne_rst {w : CommandWord} (h : w.pins.getLsbD 2 = false) (start dir : Bool) :
    decodeCommand w ≠ .rst start dir := by
  simp only [decodeCommand, h]
  cases w.pins.getLsbD 1 <;> cases w.pins.getLsbD 0 <;> simp [directionOfBit]

theorem pendingMicroOp_ne_rst {d : Direction} {p : Phase} (start dir : Bool) :
    pendingMicroOp d p ≠ some (.rst start dir) := by
  cases d <;> cases p <;> simp [pendingMicroOp]

/-! ## Two engines with the same control registers -/

/-- The control registers of two engines are the same: `PHASE`, `RND`, `DONE`, and `DIR` while an operation is under way;
where `P` holds, `DIR` in any case. -/
structure SameControl (P : Prop) (s s' : State) : Prop where
  phase : s'.phase = s.phase
  rnd : s'.rnd = s.rnd
  done : s'.done = s.done
  dir : P ∨ s.phase ≠ .idle → s'.dir = s.dir

/-- The same stalls are left, unless the key of the `EXPAND` that is next is in one cache only (rules R33, R282). -/
def SameStalls (s s' : State) : Prop :=
  (s.phase = .expand → (s.ksCache = some s.key ↔ s'.ksCache = some s'.key)) → s'.stallsLeft = s.stallsLeft

section
variable {P : Prop} {s s' t : State}

theorem SameControl.consume (hc : SameControl P s s') (rest rest' : List HostLine) :
    SameControl P (s.consume rest) (s'.consume rest') := ⟨hc.phase, hc.rnd, hc.done, hc.dir⟩

theorem SameControl.stall (hc : SameControl P s s') : SameControl P s.stall s'.stall :=
  ⟨hc.phase, hc.rnd, hc.done, hc.dir⟩

theorem SameControl.arm (hc : SameControl P s s') : SameControl P s.arm s'.arm := ⟨hc.phase, hc.rnd, hc.done, hc.dir⟩

theorem SameControl.writeRound (hc : SameControl P s s') (hb : s.phase ≠ .idle) (x x' : CipherState) (p : Phase)
    (r : Fin 11) : SameControl P (s.writeRound x p r) (s'.writeRound x' p r) :=
  ⟨rfl, rfl, hc.done, fun _ => hc.dir (.inr hb)⟩

theorem SameControl.finish (hc : SameControl P s s') (hb : s.phase ≠ .idle) (x x' : CipherState) :
    SameControl P (s.finish x) (s'.finish x') := ⟨rfl, hc.rnd, rfl, fun _ => hc.dir (.inr hb)⟩

theorem SameControl.writeSchedule (hc : SameControl P s s') (hb : s.phase ≠ .idle) (wd wd' : Schedule) :
    SameControl P (s.writeSchedule wd) (s'.writeSchedule wd') := ⟨rfl, hc.rnd, hc.done, fun _ => hc.dir (.inr hb)⟩

theorem sameControl_accept (d : Direction) (key block key' block' : Block) :
    SameControl P (s.accept d key block) (s'.accept d key' block') := ⟨rfl, rfl, rfl, fun _ => rfl⟩

theorem SameControl.deliver (hc : SameControl P s s') (r : Returned) : SameControl P (s.deliver r) (s'.deliver r) :=
  ⟨hc.phase, hc.rnd, hc.done, hc.dir⟩

/-- Reset leaves `DIR` open (rule R270). -/
theorem sameControl_resetRegs (hP : ¬ P) : SameControl P s.resetRegs s'.resetRegs :=
  ⟨rfl, rfl, rfl, fun h => h.elim (absurd · hP) (absurd rfl)⟩

/-- The stalls of a micro-operation are a matter of `PHASE` and `DIR`, and for `EXPAND` of the cache (rules R33, R282). -/
theorem SameControl.sameStalls_arm (hc : SameControl P s s') : SameStalls s.arm s'.arm := by
  intro hcache
  change s'.pendingStalls = s.pendingStalls
  cases hp : s.phase with
  | idle => simp only [State.pendingStalls, hc.phase, hp]
  | expand =>
    have hk : s.ksCache = some s.key ↔ s'.ksCache = some s'.key := hcache hp
    simp only [State.pendingStalls, hc.phase, hp, hk]
  | init | main | final =>
    have hd : s'.dir = s.dir := hc.dir (.inr (by simp [hp]))
    cases hdir : s.dir <;> simp only [State.pendingStalls, hc.phase, hp, hd, hdir]

/-! ## What an instruction and a step do to them -/

/-- Performed where it is selected, an instruction reads no data register to know that it is performed and where control
goes; `RST` alone leaves `DIR` open. -/
theorem Effect.sameControl {i i' : Instr} (h : Effect s i t) (hsel : Selected s i) (ho : SameOperation i i')
    (hc : SameControl P s s') (hrst : P → ∀ start dir, i ≠ .rst start dir) :
    ∃ t', exec i' s' = .next t' ∧ SameControl P t t' := by
  have hrnd : s'.rnd = s.rnd := hc.rnd
  cases h with
  | nop d => cases ho; exact ⟨s', rfl, hc⟩
  | encIgnored hb => rw [← hc.phase] at hb; cases ho <;> exact ⟨s', (Effect.encIgnored hb _ _).exec_eq, hc⟩
  | decIgnored hb => rw [← hc.phase] at hb; cases ho <;> exact ⟨s', (Effect.decIgnored hb _ _).exec_eq, hc⟩
  | encAccepted hi =>
    rw [← hc.phase] at hi
    cases ho <;> exact ⟨_, (Effect.encAccepted hi _ _).exec_eq, sameControl_accept ..⟩
  | decAccepted hi =>
    rw [← hc.phase] at hi
    cases ho <;> exact ⟨_, (Effect.decAccepted hi _ _).exec_eq, sameControl_accept ..⟩
  | rst start dir =>
    cases ho
    exact ⟨_, (Effect.rst start dir).exec_eq, sameControl_resetRegs fun hP => hrst hP start dir rfl⟩
  | expand d =>
    have hp : s.phase = .expand := hsel
    cases ho
    exact ⟨_, (Effect.expand d).exec_eq, hc.writeSchedule (by simp [hp]) ..⟩
  | encInit hr => cases ho; exact ⟨_, (Effect.encInit (hrnd.trans hr)).exec_eq, hc.writeRound (by simp [hsel.1]) ..⟩
  | decInit hr => cases ho; exact ⟨_, (Effect.decInit (hrnd.trans hr)).exec_eq, hc.writeRound (by simp [hsel.1]) ..⟩
  | encRound hr =>
    cases ho
    refine ⟨_, (Effect.encRound (by rwa [hrnd])).exec_eq, ?_⟩
    rw [hrnd]
    exact hc.writeRound (by simp [hsel.1]) ..
  | decRound hr =>
    cases ho
    refine ⟨_, (Effect.decRound (by rwa [hrnd])).exec_eq, ?_⟩
    rw [hrnd]
    exact hc.writeRound (by simp [hsel.1]) ..
  | encFinal hr => cases ho; exact ⟨_, (Effect.encFinal (hrnd.trans hr)).exec_eq, hc.finish (by simp [hsel.1]) ..⟩
  | decFinal hr => cases ho; exact ⟨_, (Effect.decFinal (hrnd.trans hr)).exec_eq, hc.finish (by simp [hsel.1]) ..⟩
  | primitive hp hr =>
    cases ho with
    | refl => exact ⟨_, hr s', hc.deliver _⟩
    | enc | dec => cases hp

theorem armNext_sameControl {i i' : Instr} (h : armNext (exec i s) = .next t) (hsel : Selected s i)
    (ho : SameOperation i i') (hc : SameControl P s s') (hrst : P → ∀ start dir, i ≠ .rst start dir) :
    ∃ t', armNext (exec i' s') = .next t' ∧ SameControl P t t' ∧ SameStalls t t' := by
  obtain ⟨u, hu, rfl⟩ := armNext_eq_next.1 h
  obtain ⟨u', hu', hcu⟩ := (effect_of_exec hu).sameControl hsel ho hc hrst
  exact ⟨u'.arm, armNext_eq_next.2 ⟨u', hu', rfl⟩, hcu.arm, hcu.sameStalls_arm⟩

/-- A busy engine's own step: `{DIR, PHASE}` selects the micro-operation, and both engines have the same (rule R84). -/
theorem engineStep_sameControl (hc : SameControl P s s') (hst : s'.stallsLeft = s.stallsLeft) (hb : s.phase ≠ .idle)
    (h : engineStep s = .next t) : ∃ t', engineStep s' = .next t' ∧ SameControl P t t' ∧ SameStalls t t' := by
  by_cases hs : s.stallsLeft = 0
  · obtain ⟨u, hu⟩ := Option.ne_none_iff_exists'.1 (mt pendingMicroOp_eq_none.1 hb : pendingMicroOp s.dir s.phase ≠ none)
    have hu' : pendingMicroOp s'.dir s'.phase = some u := by rw [hc.dir (.inr hb), hc.phase, hu]
    rw [engineStep_of_pending hs hu] at h
    rw [engineStep_of_pending (hst.trans hs) hu']
    exact armNext_sameControl h (selected_of_pending hu) (.refl u) hc fun _ start dir he =>
      pendingMicroOp_ne_rst start dir (he ▸ hu)
  · rw [engineStep_of_stall hs] at h
    obtain rfl := Host.Outcome.next.inj h
    refine ⟨_, engineStep_of_stall (by rwa [hst]), hc.stall, fun _ => ?_⟩
    rw [State.stall_stallsLeft, State.stall_stallsLeft, hst]

/-- A call decodes to a primitive, and it completes on both engines or on neither. -/
theorem callStep_sameControl {p : PrimCall} (hc : SameControl P s s') (hst : s'.stallsLeft = s.stallsLeft)
    (h : callStep p s = .next t) : ∃ t', callStep p s' = .next t' ∧ SameControl P t t' ∧ SameStalls t t' := by
  cases hdec : decodePrimitive p with
  | error e => simp [callStep, hdec] at h
  | ok i =>
    obtain ⟨r, hr⟩ := exec_primitive_uniform (isPrimitive_of_decodePrimitive hdec)
    simp only [callStep, hdec, hr, Host.Outcome.next.injEq] at h ⊢
    subst h
    exact ⟨_, rfl, hc.deliver r, fun _ => hst⟩

/-- One step of two engines with the same control, before lines that present alike. -/
theorem step_sameControl (hc : SameControl P s s') (hst : s'.stallsLeft = s.stallsLeft)
    (hl : List.Forall₂ SamePins s.lines s'.lines)
    (hrst : P → ∀ pins key block rest, present s.done s.lines = (.pins pins key block, rest) → pins.getLsbD 2 = false)
    (h : step s = .next t) :
    ∃ t', step s' = .next t' ∧ SameControl P t t' ∧ SameStalls t t' := by
  have hpres : PresentsAlike (present s.done s.lines) (present s'.done s'.lines) := hc.done ▸ present_alike s.done hl
  generalize hp : present s.done s.lines = x, hp' : present s'.done s'.lines = x' at hpres
  cases hpres with
  | @pins pins key block key' block' rest rest' =>
    have hcc := hc.consume rest rest'
    by_cases hcmd : pins.getLsbD 2 = true ∨ s.phase = .idle
    · rw [step_of_command hp hcmd] at h
      rw [step_of_command hp' (hc.phase ▸ hcmd)]
      refine armNext_sameControl h (selected_decodeCommand _ _) (sameOperation_decodeCommand ?_) hcc fun hP =>
        decodeCommand_ne_rst ?_
      · simp [presentedWord]
      · simpa [presentedWord] using hrst hP _ _ _ _ hp
    · obtain ⟨hr, hb⟩ := not_or.1 hcmd
      rw [Bool.not_eq_true] at hr
      rw [step_of_busy hp hr hb] at h
      rw [step_of_busy hp' hr (hc.phase ▸ hb)]
      exact engineStep_sameControl hcc hst hb h
  | @call p rest rest' =>
    rw [step_of_call hp] at h
    rw [step_of_call hp']
    exact callStep_sameControl (hc.consume rest rest') hst h

end

/-- `DIR` is the same in both engines, and no `rst` is presented: then `DIR` stays the same even while they are idle. -/
def SameDirNoRst (s s' : State) : Prop :=
  s'.dir = s.dir ∧ ∀ pins key block rest, present s.done s.lines = (.pins pins key block, rest) → pins.getLsbD 2 = false

/-- Settles O48: one step of two engines with the same control; the lines that are left are those of two hosts that present
alike. -/
theorem controlIsIndependentOfData : Obligations.ControlIsIndependentOfData := by
  intro s s' t hphase hrnd hdone hst hdir hl h
  have hc : SameControl (SameDirNoRst s s') s s' := ⟨hphase, hrnd, hdone, fun hP => hP.elim And.left hdir.resolve_right⟩
  obtain ⟨t', h', hct, hstalls⟩ := step_sameControl hc hst hl And.right h
  refine ⟨t', h', hct.phase, hct.rnd, hct.done, ?_, ?_, hstalls, fun hd hr => hct.dir (.inl ⟨hd, hr⟩)⟩
  · exact or_iff_not_imp_right.2 fun hb => hct.dir (.inr hb)
  · rw [step_lines h, step_lines h', hdone]
    exact (present_alike s.done hl).lines

end Sys2Proof.Machine
end
